-- ==== Sys2Proof/Word.lean ====
section
/-! DEFINITION. The word types of the frame codec block: a byte, and a raw byte array of fixed length.
Integer fields (u12, u16, u32, u64, i16) are bit vectors of their width (00_scope.md rule R8). -/

namespace Sys2Proof

/-- One byte of a frame. -/
abbrev Byte := BitVec 8

/-- A `[n bytes]` of rule R8: exactly `n` bytes, no delimiter and no interpretation; element 0 is the byte at the
lowest offset (20_memory.md rule R63). -/
structure Bytes (n : Nat) where
  toList : List Byte
  length_eq : toList.length = n
  deriving DecidableEq, Repr

/-- The array of `n` zero bytes. -/
def Bytes.zero (n : Nat) : Bytes n := ⟨List.replicate n 0, List.length_replicate⟩

end Sys2Proof
end

