-- ==== Sys2Proof/Syntax.lean ====
section
/-! DEFINITION. The instructions of the block, one constructor per row of spec/opcode_table.json: the payload formats
that a 16-bit kind selects (30_encoding.md rule R95) and the two operations of the request vector (rule R101). -/

namespace Sys2Proof

/-- The rows of the opcode table. A payload format has a decode rule, run by the decoder unit, and an encode rule, run
by the encoder unit; the two operations start a transaction of their unit. -/
inductive Instr where
  /-- Kind 32: no fields (rules R141, R172). -/
  | deviceGetVersion
  /-- Kind 33: vendor, product, version (rules R142, R173). -/
  | deviceStateVersion
  /-- Kind 34: no fields (rules R143, R174). -/
  | deviceGetInfo
  /-- Kind 35: time, uptime, downtime (rules R144, R175). -/
  | deviceStateInfo
  /-- Kind 107: color, dim, power, label, tags (rules R145, R176). -/
  | lightState
  /-- Every other kind, which the variant carries (rules R146, R171, R35). -/
  | empty (kind : BitVec 16)
  /-- Request bit 0: a DECODE transaction (rule R124). -/
  | decode
  /-- Request bit 1: an ENCODE transaction (rule R160). -/
  | encode
  deriving DecidableEq, Repr

end Sys2Proof
end

