-- ==== Sys2Proof/WellFormed.lean ====
section
/-! DEFINITION. Which instructions are well-formed: an Empty carries a kind that names no other variant
(30_encoding.md rule R95, 42_serialize.md rule R180 (c)). -/

namespace Sys2Proof

/-- The five kinds that the routing table lists (rule R95). -/
def tableKind (k : BitVec 16) : Bool :=
  k == 32 || k == 33 || k == 34 || k == 35 || k == 107

/-- `Empty` stands for every kind not in the table (rule R95); no other constructor has an operand to check. -/
def Instr.wellFormed : Instr → Bool
  | .empty k => !tableKind k
  | .deviceGetVersion => true
  | .deviceStateVersion => true
  | .deviceGetInfo => true
  | .deviceStateInfo => true
  | .lightState => true
  | .decode => true
  | .encode => true

end Sys2Proof
end

