-- ==== Sys2Proof/Decode.lean ====
section
/-! DEFINITION. Decoding of instruction words and its inverse. A KIND16 word is the two kind bytes of a frame,
little-endian (30_encoding.md rules R85, R95); a REQ word is the two-bit request vector (rule R101). The byte-order
helpers used by every field read and write stand here too (20_memory.md rule R62). -/

namespace Sys2Proof

/-- The little-endian value of a byte sequence: its first byte holds bits 7..0 (rules R11, R62). -/
def leNat : List Byte → Nat
  | [] => 0
  | b :: bs => b.toNat + 256 * leNat bs

/-- The `n` little-endian bytes of a natural: byte `k` is `(v >> 8k) & 0xFF` (rule R11). -/
def leBytes : Nat → Nat → List Byte
  | 0, _ => []
  | n + 1, v => BitVec.ofNat 8 v :: leBytes n (v / 256)

/-- The two formats of the opcode table. -/
inductive Format where
  /-- The kind of a frame: bytes 32-33 (rule R95). -/
  | kind16
  /-- The request vector `{enc_req, dec_req}` (rule R101). -/
  | req
  deriving DecidableEq, Repr

/-- Why a word is no instruction. -/
inductive DecodeError where
  /-- Fewer bytes than the format's word has. -/
  | tooShort
  /-- A request vector of `0b00` "requests nothing" (rule R101). -/
  | noRequest
  /-- A bit above the two of the request vector is set: the vector has no such bit (rule R101). -/
  | notARequestBit
  deriving DecidableEq, Repr

/-- Rule R121, `route(k)` as an instruction: exact match on all 16 bits, Empty otherwise. -/
def decodeKind (k : BitVec 16) : Instr :=
  if k = 32 then .deviceGetVersion
  else if k = 33 then .deviceStateVersion
  else if k = 34 then .deviceGetInfo
  else if k = 35 then .deviceStateInfo
  else if k = 107 then .lightState
  else .empty k

/-- Rule R101: the operations a request vector requests; both bits may be set in one cycle. -/
def decodeReq (r : BitVec 2) : List Instr :=
  (if r.getLsbD 0 then [.decode] else []) ++ (if r.getLsbD 1 then [.encode] else [])

/-- The instructions of the word at the front of a byte sequence, with the bytes after it, or why there is none. -/
def decodeBytes : Format → List Byte → Except DecodeError (List Instr × List Byte)
  | .kind16, lo :: hi :: rest => .ok ([decodeKind (BitVec.ofNat 16 (leNat [lo, hi]))], rest)
  | .kind16, _ => .error .tooShort
  | .req, b :: rest =>
    if 4 ≤ b.toNat then .error .notARequestBit
    else match decodeReq (BitVec.ofNat 2 b.toNat) with
      | [] => .error .noRequest
      | is => .ok (is, rest)
  | .req, [] => .error .tooShort

/-- The format of an instruction's word. -/
def Instr.format : Instr → Format
  | .decode => .req
  | .encode => .req
  | .deviceGetVersion => .kind16
  | .deviceStateVersion => .kind16
  | .deviceGetInfo => .kind16
  | .deviceStateInfo => .kind16
  | .lightState => .kind16
  | .empty _ => .kind16

/-- The value of an instruction's word: the kind of the variant (rule R95) or the request bit (rule R101). -/
def Instr.code : Instr → Nat
  | .deviceGetVersion => 32
  | .deviceStateVersion => 33
  | .deviceGetInfo => 34
  | .deviceStateInfo => 35
  | .lightState => 107
  | .empty k => k.toNat
  | .decode => 1
  | .encode => 2

/-- The number of bytes of a format's word: two kind bytes, or one byte that holds the request vector (log 13). -/
def Format.bytes : Format → Nat
  | .kind16 => 2
  | .req => 1

/-- The bytes of an instruction's word, in increasing order. -/
def encodeInstr (i : Instr) : List Byte := leBytes i.format.bytes i.code

/-- The first instruction of a successful decoding. -/
def firstInstr : Except DecodeError (List Instr × List Byte) → Option Instr
  | .ok (i :: _, _) => some i
  | .ok ([], _) => none
  | .error _ => none

/-- The instruction of a word numbered as the opcode table numbers its bits. A word of at most 8 bits that holds a
request is a request vector (of `0b11` the first operation in the table's order); any other word is a kind, its bits
above `nbits` zero (log 13). -/
def decodeTableWord (nbits w : Nat) : Option Instr :=
  if 65536 ≤ w then none
  else if nbits ≤ 8 ∧ 0 < w ∧ w < 4 then firstInstr (decodeBytes .req (leBytes 1 w))
  else firstInstr (decodeBytes .kind16 (leBytes 2 w))

end Sys2Proof
end

