-- ==== Sys2Proof/Config.lean ====
section
/-! DEFINITION. The parameters the spec leaves open (00_scope.md rule R7) and the constants it fixes (rule R6). The
open ones are opaque: a statement about the model holds for every value of them. -/

namespace Sys2Proof

/-- How far the input buffer's capacity exceeds 88 bytes: open (rule R7, decision D12; log 11). -/
opaque Config.inCapacityAbove88 : Nat

/-- `MAX_IN_LEN`, the capacity of `DEC_IN` in bytes: open, at least 88 (rule R7; log 11). -/
def Config.maxInLen : Nat := Config.inCapacityAbove88 + 88

/-- How far the decode latency exceeds one cycle: open (rule R7; log 12). -/
opaque Config.decLatencyAbove1 : Nat

/-- `DEC_LATENCY`, at least one cycle; no rule depends on it (rules R7, R235; log 12). -/
def Config.decLatency : Nat := Config.decLatencyAbove1 + 1

/-- How far the encode latency exceeds one cycle: open (rule R7; log 12). -/
opaque Config.encLatencyAbove1 : Nat

/-- `ENC_LATENCY`, at least one cycle; no rule depends on it (rules R7, R235; log 12). -/
def Config.encLatency : Nat := Config.encLatencyAbove1 + 1

/-- `HDR_LEN` (rule R6). -/
abbrev Config.hdrLen : Nat := 36

/-- `MAX_FRAME_OUT` (rule R6). -/
abbrev Config.maxFrameOut : Nat := 88

end Sys2Proof
end

