-- ==== Sys2Proof/Machine/State.lean ====
section
/-! DEFINITION. The state of the frame codec block (10_state.md): the registers of the two units, their buffers, the
transactions in flight, and, as the model's own fields, what the host and the units do next. -/

namespace Sys2Proof.Machine

/-! The values the codec works on (10_state.md section 2). -/

/-- Rule R22, the header value. -/
structure Header where
  size : BitVec 16
  version : BitVec 12
  addressable : Bool
  tagged : Bool
  target : Bytes 8
  site : Bytes 6
  acknowledge : Bool
  atTime : BitVec 64
  kind : BitVec 16
  deriving DecidableEq, Repr

/-- Rule R23, the color of a LightState. -/
structure Hsbk where
  hue : BitVec 16
  saturation : BitVec 16
  brightness : BitVec 16
  kelvin : BitVec 16
  deriving DecidableEq, Repr

/-- Rule R23, the payload value; `dim` is the 16 bits of an i16 (41_payload_decode.md rule R147). -/
inductive Payload where
  | empty (kind : BitVec 16)
  | deviceGetVersion
  | deviceStateVersion (vendor product version : BitVec 32)
  | deviceGetInfo
  | deviceStateInfo (time uptime downtime : BitVec 64)
  | lightState (color : Hsbk) (dim power : BitVec 16) (label : Bytes 32) (tags : BitVec 64)
  deriving DecidableEq, Repr

/-- Rule R24, a message value. -/
structure Message where
  header : Header
  payload : Payload
  deriving DecidableEq, Repr

/-- The decoder's only error, with the offset and width of the read that failed (rule R11). Both exist only inside the
transaction (60_exceptions.md rule R190). -/
structure TruncatedInput where
  off : Nat
  n : Nat
  deriving DecidableEq, Repr

/-! Registers. -/

/-- A host-owned input register: the value it holds, and whether the host has written it since reset. Rule R222 makes a
request that needs an input "never written since reset" a fault; the value before the first write is never sampled
(log 1, 10). -/
structure Input (α : Type) where
  value : α
  written : Bool
  deriving DecidableEq, Repr

/-- An input that the host has written. -/
abbrev Input.holds {α : Type} (v : α) : Input α := ⟨v, true⟩

/-- An input that nothing has written since reset. -/
abbrev Input.unwritten {α : Type} (v : α) : Input α := ⟨v, false⟩

/-- A byte buffer: the bytes that hold a value, by rising offset, no offset twice. An offset not listed holds no value
(rules R36, R45; log 2). -/
abbrev Mem := List Host.Cell

/-- The decoder's result registers (rules R31 to R34). Which of them are specified, so that the host may read them, is given
by the status and the tag (rule R36; log 23). -/
structure DecRegs where
  /-- `DEC_SIZE` (rule R31). -/
  size : BitVec 16
  /-- `DEC_VERSION` (rule R31). -/
  version : BitVec 12
  /-- `DEC_ADDR` (rule R31). -/
  addr : Bool
  /-- `DEC_TAGGED` (rule R31). -/
  tagged : Bool
  /-- `DEC_TARGET` (rule R31). -/
  target : Bytes 8
  /-- `DEC_SITE` (rule R31). -/
  site : Bytes 6
  /-- `DEC_ACK` (rule R31). -/
  ack : Bool
  /-- `DEC_AT_TIME` (rule R31). -/
  atTime : BitVec 64
  /-- `DEC_KIND` (rule R31). -/
  kind : BitVec 16
  /-- `DEC_WIN_LEN` (rule R32). -/
  winLen : BitVec 16
  /-- `DEC_PTAG` (rule R33). -/
  ptag : BitVec 3
  /-- `DEC_P_VENDOR` (rule R34). -/
  pVendor : BitVec 32
  /-- `DEC_P_PRODUCT` (rule R34). -/
  pProduct : BitVec 32
  /-- `DEC_P_VERSION` (rule R34). -/
  pVersion : BitVec 32
  /-- `DEC_P_TIME` (rule R34). -/
  pTime : BitVec 64
  /-- `DEC_P_UPTIME` (rule R34). -/
  pUptime : BitVec 64
  /-- `DEC_P_DOWNTIME` (rule R34). -/
  pDowntime : BitVec 64
  /-- `DEC_P_HUE` (rule R34). -/
  pHue : BitVec 16
  /-- `DEC_P_SAT` (rule R34). -/
  pSat : BitVec 16
  /-- `DEC_P_BRI` (rule R34). -/
  pBri : BitVec 16
  /-- `DEC_P_KELVIN` (rule R34). -/
  pKelvin : BitVec 16
  /-- `DEC_P_DIM` (rule R34). -/
  pDim : BitVec 16
  /-- `DEC_P_POWER` (rule R34). -/
  pPower : BitVec 16
  /-- `DEC_P_LABEL` (rule R34). -/
  pLabel : Bytes 32
  /-- `DEC_P_TAGS` (rule R34). -/
  pTags : BitVec 64
  deriving DecidableEq, Repr

/-- The encoder's input registers (rule R38). -/
structure EncRegs where
  /-- `ENC_VERSION` (rule R38). -/
  version : Input (BitVec 16)
  /-- `ENC_ADDR` (rule R38). -/
  addr : Input Bool
  /-- `ENC_TAGGED` (rule R38). -/
  tagged : Input Bool
  /-- `ENC_TARGET` (rule R38). -/
  target : Input (Bytes 8)
  /-- `ENC_SITE` (rule R38). -/
  site : Input (Bytes 6)
  /-- `ENC_ACK` (rule R38). -/
  ack : Input Bool
  /-- `ENC_AT_TIME` (rule R38). -/
  atTime : Input (BitVec 64)
  /-- `ENC_PTAG` (rule R38). -/
  ptag : Input (BitVec 3)
  /-- `ENC_EMPTY_KIND` (rule R38). -/
  emptyKind : Input (BitVec 16)
  /-- `ENC_P_VENDOR` (rule R38). -/
  pVendor : Input (BitVec 32)
  /-- `ENC_P_PRODUCT` (rule R38). -/
  pProduct : Input (BitVec 32)
  /-- `ENC_P_VERSION` (rule R38). -/
  pVersion : Input (BitVec 32)
  /-- `ENC_P_TIME` (rule R38). -/
  pTime : Input (BitVec 64)
  /-- `ENC_P_UPTIME` (rule R38). -/
  pUptime : Input (BitVec 64)
  /-- `ENC_P_DOWNTIME` (rule R38). -/
  pDowntime : Input (BitVec 64)
  /-- `ENC_P_HUE` (rule R38). -/
  pHue : Input (BitVec 16)
  /-- `ENC_P_SAT` (rule R38). -/
  pSat : Input (BitVec 16)
  /-- `ENC_P_BRI` (rule R38). -/
  pBri : Input (BitVec 16)
  /-- `ENC_P_KELVIN` (rule R38). -/
  pKelvin : Input (BitVec 16)
  /-- `ENC_P_DIM` (rule R38). -/
  pDim : Input (BitVec 16)
  /-- `ENC_P_POWER` (rule R38). -/
  pPower : Input (BitVec 16)
  /-- `ENC_P_LABEL` (rule R38). -/
  pLabel : Input (Bytes 32)
  /-- `ENC_P_TAGS` (rule R38). -/
  pTags : Input (BitVec 64)
  deriving DecidableEq, Repr

/-- The decoder result registers after reset: zero, which no read delivers, since rule R45 calls them unspecified (log 1). -/
def DecRegs.reset : DecRegs where
  size := 0
  version := 0
  addr := false
  tagged := false
  target := Bytes.zero 8
  site := Bytes.zero 6
  ack := false
  atTime := 0
  kind := 0
  winLen := 0
  ptag := 0
  pVendor := 0
  pProduct := 0
  pVersion := 0
  pTime := 0
  pUptime := 0
  pDowntime := 0
  pHue := 0
  pSat := 0
  pBri := 0
  pKelvin := 0
  pDim := 0
  pPower := 0
  pLabel := Bytes.zero 32
  pTags := 0

/-- The encoder inputs after reset: zero and never written, since rule R45 calls them unspecified (log 1). -/
def EncRegs.reset : EncRegs where
  version := .unwritten 0
  addr := .unwritten false
  tagged := .unwritten false
  target := .unwritten (Bytes.zero 8)
  site := .unwritten (Bytes.zero 6)
  ack := .unwritten false
  atTime := .unwritten 0
  ptag := .unwritten 0
  emptyKind := .unwritten 0
  pVendor := .unwritten 0
  pProduct := .unwritten 0
  pVersion := .unwritten 0
  pTime := .unwritten 0
  pUptime := .unwritten 0
  pDowntime := .unwritten 0
  pHue := .unwritten 0
  pSat := .unwritten 0
  pBri := .unwritten 0
  pKelvin := .unwritten 0
  pDim := .unwritten 0
  pPower := .unwritten 0
  pLabel := .unwritten (Bytes.zero 32)
  pTags := .unwritten 0

/-! Transactions in flight (rules R26, R43). -/

/-- How far a DECODE has come inside the unit. -/
inductive DecStage where
  /-- The header stage raised TruncatedInput; the completion reports it (60_exceptions.md rule R193). -/
  | raised (e : TruncatedInput)
  /-- The header value and the payload window length are known; the payload rule is next (rule R122). -/
  | payload (h : Header) (win : Nat)
  deriving DecidableEq, Repr

/-- A DECODE in flight: the sampled copy of `DEC_IN[0 .. DEC_LEN-1]` (its length is the sampled `DEC_LEN`), the field
cursor, and the partial results. -/
structure DecTxn where
  input : List Byte
  cur : Nat
  stage : DecStage
  deriving DecidableEq, Repr

/-- The decoder unit: `DEC_BUSY` is 1 exactly when a transaction is in flight (rule R29). -/
inductive DecUnit where
  | idle
  | inFlight (t : DecTxn)
  deriving DecidableEq, Repr

/-- The sampled copy of the encoder inputs that the tag needs (rules R43, R222); a reserved tag has no payload
(rule R33). -/
structure EncSample where
  version : BitVec 16
  addressable : Bool
  tagged : Bool
  target : Bytes 8
  site : Bytes 6
  acknowledge : Bool
  atTime : BitVec 64
  payload : Option Payload
  deriving DecidableEq, Repr

/-- How far an ENCODE has come inside the unit. -/
inductive EncStage where
  /-- The request was ill-formed; the completion reports it (42_serialize.md rule R180). -/
  | illFormed
  /-- The header bytes are written to the private output; the payload writes are next (rule R160). -/
  | headerWritten (out : Mem)
  deriving DecidableEq, Repr

/-- An ENCODE in flight. -/
structure EncTxn where
  sample : EncSample
  stage : EncStage
  deriving DecidableEq, Repr

/-- The encoder unit: `ENC_BUSY` is 1 exactly when a transaction is in flight (rule R39). -/
inductive EncUnit where
  | idle
  | inFlight (t : EncTxn)
  deriving DecidableEq, Repr

/-! What the agents do (rule R20; log 4). -/

/-- The two units (rule R20). -/
inductive CodecUnit where
  | dec
  | enc
  deriving DecidableEq, Repr

/-- A host write of one encoder input (rule R38). -/
inductive EncWrite where
  /-- `ENC_VERSION <- v`. -/
  | version (v : BitVec 16)
  /-- `ENC_ADDR <- v`. -/
  | addr (v : Bool)
  /-- `ENC_TAGGED <- v`. -/
  | tagged (v : Bool)
  /-- `ENC_TARGET <- v`. -/
  | target (v : Bytes 8)
  /-- `ENC_SITE <- v`. -/
  | site (v : Bytes 6)
  /-- `ENC_ACK <- v`. -/
  | ack (v : Bool)
  /-- `ENC_AT_TIME <- v`. -/
  | atTime (v : BitVec 64)
  /-- `ENC_PTAG <- v`. -/
  | ptag (v : BitVec 3)
  /-- `ENC_EMPTY_KIND <- v`. -/
  | emptyKind (v : BitVec 16)
  /-- `ENC_P_VENDOR <- v`. -/
  | pVendor (v : BitVec 32)
  /-- `ENC_P_PRODUCT <- v`. -/
  | pProduct (v : BitVec 32)
  /-- `ENC_P_VERSION <- v`. -/
  | pVersion (v : BitVec 32)
  /-- `ENC_P_TIME <- v`. -/
  | pTime (v : BitVec 64)
  /-- `ENC_P_UPTIME <- v`. -/
  | pUptime (v : BitVec 64)
  /-- `ENC_P_DOWNTIME <- v`. -/
  | pDowntime (v : BitVec 64)
  /-- `ENC_P_HUE <- v`. -/
  | pHue (v : BitVec 16)
  /-- `ENC_P_SAT <- v`. -/
  | pSat (v : BitVec 16)
  /-- `ENC_P_BRI <- v`. -/
  | pBri (v : BitVec 16)
  /-- `ENC_P_KELVIN <- v`. -/
  | pKelvin (v : BitVec 16)
  /-- `ENC_P_DIM <- v`. -/
  | pDim (v : BitVec 16)
  /-- `ENC_P_POWER <- v`. -/
  | pPower (v : BitVec 16)
  /-- `ENC_P_LABEL <- v`. -/
  | pLabel (v : Bytes 32)
  /-- `ENC_P_TAGS <- v`. -/
  | pTags (v : BitVec 64)
  deriving DecidableEq, Repr

/-- The names of the decoder result registers (rules R31 to R34). -/
inductive DecReg where
  /-- `DEC_SIZE`. -/
  | size
  /-- `DEC_VERSION`. -/
  | version
  /-- `DEC_ADDR`. -/
  | addr
  /-- `DEC_TAGGED`. -/
  | tagged
  /-- `DEC_TARGET`. -/
  | target
  /-- `DEC_SITE`. -/
  | site
  /-- `DEC_ACK`. -/
  | ack
  /-- `DEC_AT_TIME`. -/
  | atTime
  /-- `DEC_KIND`. -/
  | kind
  /-- `DEC_WIN_LEN`. -/
  | winLen
  /-- `DEC_PTAG`. -/
  | ptag
  /-- `DEC_P_VENDOR`. -/
  | pVendor
  /-- `DEC_P_PRODUCT`. -/
  | pProduct
  /-- `DEC_P_VERSION`. -/
  | pVersion
  /-- `DEC_P_TIME`. -/
  | pTime
  /-- `DEC_P_UPTIME`. -/
  | pUptime
  /-- `DEC_P_DOWNTIME`. -/
  | pDowntime
  /-- `DEC_P_HUE`. -/
  | pHue
  /-- `DEC_P_SAT`. -/
  | pSat
  /-- `DEC_P_BRI`. -/
  | pBri
  /-- `DEC_P_KELVIN`. -/
  | pKelvin
  /-- `DEC_P_DIM`. -/
  | pDim
  /-- `DEC_P_POWER`. -/
  | pPower
  /-- `DEC_P_LABEL`. -/
  | pLabel
  /-- `DEC_P_TAGS`. -/
  | pTags
  deriving DecidableEq, Repr

/-- What the host can read: every busy bit, status and result register. -/
inductive ReadReg where
  /-- `DEC_BUSY`. -/
  | decBusy
  /-- `DEC_STATUS`. -/
  | decStatus
  /-- A decoder result register. -/
  | dec (r : DecReg)
  /-- `ENC_BUSY`. -/
  | encBusy
  /-- `ENC_STATUS`. -/
  | encStatus
  /-- `ENC_LEN`. -/
  | encLen
  /-- `ENC_OUT[i]`. -/
  | encOut (i : Nat)
  deriving DecidableEq, Repr

/-- What a host read returns. -/
inductive ReadValue where
  /-- A one-bit register. -/
  | flag (b : Bool)
  /-- An unsigned register. -/
  | unsigned (v : Nat)
  /-- The signed register `DEC_P_DIM` (rule R147). -/
  | signed (v : Int)
  /-- A byte array, element 0 first. -/
  | bytes (l : List Byte)
  deriving DecidableEq, Repr

/-- One action of the host (rules R27, R28, R38, R101, R102, R220, R233). -/
inductive HostAct where
  /-- `DEC_IN[i] <- b`. -/
  | writeDecIn (i : Nat) (b : Byte)
  /-- `DEC_LEN <- n`. -/
  | writeDecLen (n : Nat)
  /-- A write of one encoder input. -/
  | writeEnc (w : EncWrite)
  /-- The request vector for one cycle, bit 0 `dec_req`, bit 1 `enc_req`. -/
  | request (r : BitVec 2)
  /-- A read of a busy bit, status or result. -/
  | read (r : ReadReg)
  /-- The host copy `COPY` of rule R102. -/
  | copy
  /-- `rst` asserted. -/
  | reset
  deriving DecidableEq, Repr

/-- One entry of the agenda: an action of the host, or a unit's completion of its transaction in flight. -/
inductive Event where
  | host (a : HostAct)
  | unit (u : CodecUnit)
  deriving DecidableEq, Repr

/-- The state of the block. -/
structure State where
  /-- `DEC_IN` (rule R27). -/
  decIn : Mem
  /-- `DEC_LEN` (rule R28). -/
  decLen : Input Nat
  /-- `DEC_BUSY` and the DECODE in flight (rules R26, R29, R43). -/
  decUnit : DecUnit
  /-- `DEC_STATUS` (rule R30). -/
  decStatus : BitVec 2
  /-- The decoder result registers (rules R31 to R34). -/
  decRegs : DecRegs
  /-- The encoder inputs (rule R38). -/
  encIn : EncRegs
  /-- `ENC_BUSY` and the ENCODE in flight (rules R39, R43). -/
  encUnit : EncUnit
  /-- `ENC_STATUS` (rule R40). -/
  encStatus : BitVec 2
  /-- `ENC_OUT` (rule R41). -/
  encOut : Mem
  /-- `ENC_LEN` (rule R41). -/
  encLen : BitVec 16
  /-- The model's own: the unit that runs a payload format (log 6). -/
  mover : CodecUnit
  /-- The model's own: what the host and the units do next, in order (log 4). -/
  agenda : List Event
  /-- The model's own: what the host's last read returned (log 7). -/
  hostRead : Option ReadValue
  deriving DecidableEq, Repr

/-- Status 0b00 of both units: no transaction has completed since reset (rules R30, R40). -/
abbrev statusIdle : BitVec 2 := 0
/-- Status 0b01 of both units (rules R30, R40). -/
abbrev statusOk : BitVec 2 := 1
/-- Status 0b10: TRUNCATED_INPUT of the decoder (rule R30), ILLFORMED of the encoder (rule R40). -/
abbrev statusError : BitVec 2 := 2
/-- Status 0b11: reserved, never written (rules R30, R40). -/
abbrev statusReserved : BitVec 2 := 3

/-- The state right after reset (rules R45, R220): both units idle with status IDLE, so that every result register and
output is unspecified and a read of it a fault (rule R36); every input never written. The registers hold zero (log 1) and
no buffer byte holds a value (log 2). Of the model's own fields: nothing on the agenda (log 4), the decoder as mover (log
6), nothing read (log 7). -/
def State.reset : State where
  decIn := []
  decLen := .unwritten 0
  decUnit := .idle
  decStatus := statusIdle
  decRegs := DecRegs.reset
  encIn := EncRegs.reset
  encUnit := .idle
  encStatus := statusIdle
  encOut := []
  encLen := 0
  mover := .dec
  agenda := []
  hostRead := none

/-- Why the machine stops with a fault. Each is safe: the model stops where the block, or a host that breaks the rule,
may go on. -/
inductive Fault where
  /-- A host read, or the COPY, of a register or byte that the unit's status, tag or length makes unspecified: "A model must
  treat a host read of it as a fault" (rule R36, I7). Raised by `hostReadReg` and `hostCopy`. Safe. -/
  | unspecifiedRead
  /-- A request whose needed inputs were never written since reset: "a model treats it as a fault" (rule R222, I8). Raised
  by `execDecode` and `execEncode`. Safe. -/
  | inputNotWritten
  /-- A host write of an input of a unit with a transaction in flight (rule R231, I15). Raised by the host writes and
  `hostCopy`. Safe. -/
  | inputChangedInFlight
  /-- A host access to an offset, or a length, outside a buffer (rules R28, R60; log 11). Raised by the host accesses.
  Safe. -/
  | outsideBuffer
  deriving DecidableEq, Repr

/-- Why a step has no meaning. -/
inductive Refusal where
  /-- An instruction without a meaning. Raised by no arm of `exec`. Safe. -/
  | notModelled (mnemonic : String)
  /-- A request to a busy unit, or a host read of a busy unit's status or results: the spec gives such an act no step
  (rule R230, I16: "errs toward proving"). Raised by `execDecode`, `execEncode`, `hostReadReg`, `hostCopy`. Unsafe: the
  spec assumes that no host does it (log 8). -/
  | hostActsWhileBusy
  /-- A payload format executed while its unit holds no transaction at the payload stage of that format; rule R122 runs
  a format only where the kind or the tag selects it. Raised by the payload meanings, never in a step (log 14). Safe. -/
  | notRouted
  /-- A read of a status register that holds the reserved 0b11: such a state is unreachable (rules R30, R40, I9). Raised
  by `hostReadReg` (log 20). Safe. -/
  | reservedStatus
  deriving DecidableEq, Repr

end Sys2Proof.Machine
end

