-- ==== Sys2Proof/Machine/Flags.lean ====
section
/-! DEFINITION. The frame flags and bit fields (10_state.md rule R42; 30_encoding.md rules R82, R83, R89, R90): taking
the protocol bitfield and the ack-bitfield apart, and putting them together. -/

namespace Sys2Proof.Machine

/-- `version = pb[11:0]` (rules R89, R111). -/
def protocolVersion (pb : BitVec 16) : BitVec 12 := pb.setWidth 12

/-- `addressable = (pb[12] = 1)` (rules R89, R112). -/
def protocolAddressable (pb : BitVec 16) : Bool := pb.getLsbD 12

/-- `tagged = (pb[13] = 1)` (rules R89, R112). -/
def protocolTagged (pb : BitVec 16) : Bool := pb.getLsbD 13

/-- `acknowledge = (ab[0] = 1)` (rules R89, R117). -/
def ackAcknowledge (ab : BitVec 16) : Bool := ab.getLsbD 0

/-- `pb = version[11:0] | (addressable ? 0x1000 : 0) | (tagged ? 0x2000 : 0)` (rules R90, R164). -/
def packProtocol (version : BitVec 16) (addressable tagged : Bool) : BitVec 16 :=
  (version &&& 0x0FFF) ||| (if addressable then 0x1000 else 0) ||| (if tagged then 0x2000 else 0)

/-- `ab = acknowledge ? 0x0001 : 0x0000` (rules R90, R167). -/
def packAck (acknowledge : Bool) : BitVec 16 := if acknowledge then 1 else 0

/-- The i16 value of the 16 bits of `dim`: `u` if `u <= 0x7FFF`, else `u - 65536` (rule R147; log 15). -/
def signedDim (u : BitVec 16) : Int := if u.toNat ≤ 0x7FFF then u.toNat else (u.toNat : Int) - 65536

end Sys2Proof.Machine
end

