-- ==== Sys2Proof/Machine/Ops.lean ====
section
/-! DEFINITION. The named operations over buffers and registers: byte reads and writes, the memory primitives of
00_scope.md rule R11, the payload primitives of rules R140 and R170, the busy bits, the lengths of rule R6, the commits
of rules R125, R160 and R184, the raise of an error (60_exceptions.md rule R193), and reset (rule R220). -/

namespace Sys2Proof.Machine

/-- What a request samples from an input: its value, if the host has written it since reset (rule R222). -/
def Input.get? {α : Type} (x : Input α) : Option α := if x.written then some x.value else none

/-! Byte buffers. -/

/-- The byte at an offset; none where the offset holds no value (rule R36; log 2). -/
def Mem.read : Mem → Nat → Option Byte
  | [], _ => none
  | (k, b) :: m, a => if k = a then some b else Mem.read m a

/-- A write of one byte, keeping the offsets rising. -/
def Mem.write : Mem → Nat → Byte → Mem
  | [], a, b => [(a, b)]
  | (k, c) :: m, a, b =>
    if a < k then (a, b) :: (k, c) :: m
    else if a = k then (a, b) :: m
    else (k, c) :: Mem.write m a b

/-- The canonical form: offsets strictly rising. No listed byte equals what an unlisted offset reads as, because an
unlisted offset holds no value. -/
def Mem.wf : Mem → Bool
  | [] => true
  | [_] => true
  | (a, _) :: (b, y) :: m => decide (a < b) && Mem.wf ((b, y) :: m)

/-- Every listed offset lies below a bound. -/
def Mem.below (m : Mem) (bound : Nat) : Bool := m.all fun c => decide (c.1 < bound)

/-- The `n` bytes from an offset on, if each holds a value. -/
def Mem.readRange (m : Mem) : Nat → Nat → Option (List Byte)
  | _, 0 => some []
  | off, n + 1 =>
    match Mem.read m off, Mem.readRange m (off + 1) n with
    | some b, some bs => some (b :: bs)
    | _, _ => none

/-- `MemWriteBytes(off, s)` (rule R11): raw copy in increasing offset order. -/
def memWriteBytes : Nat → List Byte → Mem → Mem
  | _, [], m => m
  | off, b :: bs, m => memWriteBytes (off + 1) bs (Mem.write m off b)

/-- `MemWrite(off, n, v)` (rule R11): little-endian. -/
def memWrite (off n v : Nat) (m : Mem) : Mem := memWriteBytes off (leBytes n v) m

/-- `PWrite(w, n, v)` (rule R170). -/
def pWrite (w n v : Nat) (m : Mem) : Mem := memWrite (36 + w) n v m

/-- `PWriteBytes(w, s)` (rule R170). -/
def pWriteBytes (w : Nat) (s : List Byte) (m : Mem) : Mem := memWriteBytes (36 + w) s m

/-- `MemReadBytes(off, n)` (rule R11) on the sampled input, whose length is the sampled `DEC_LEN`: raw copy, or
TruncatedInput where the read crosses the end. -/
def memReadBytes (input : List Byte) (off n : Nat) : Except TruncatedInput (Bytes n) :=
  if h : off + n ≤ input.length then
    .ok ⟨(input.drop off).take n, by rw [List.length_take, List.length_drop]; omega⟩
  else .error ⟨off, n⟩

/-- `MemRead(off, n)` (rule R11): little-endian. -/
def memRead (input : List Byte) (off n : Nat) : Except TruncatedInput Nat :=
  match memReadBytes input off n with
  | .ok bs => .ok (leNat bs.toList)
  | .error e => .error e

/-- `PRead(w, n)` (rule R140): a read inside the payload window. -/
def pRead (input : List Byte) (win w n : Nat) : Except TruncatedInput Nat :=
  if win < w + n then .error ⟨36 + w, n⟩ else memRead input (36 + w) n

/-- `PReadBytes(w, n)` (rule R140). -/
def pReadBytes (input : List Byte) (win w n : Nat) : Except TruncatedInput (Bytes n) :=
  if win < w + n then .error ⟨36 + w, n⟩ else memReadBytes input (36 + w) n

/-! Variants (10_state.md rule R33, 30_encoding.md rule R95, 00_scope.md rules R6, R13). -/

/-- `LEN(V)` of an instruction's variant (rule R6); the two operations have no payload. -/
def payloadLen : Instr → Nat
  | .deviceGetVersion => 0
  | .deviceStateVersion => 12
  | .deviceGetInfo => 0
  | .deviceStateInfo => 24
  | .lightState => 52
  | .empty _ => 0
  | .decode => 0
  | .encode => 0

/-- The payload format of a payload value. -/
def Payload.variant : Payload → Instr
  | .empty k => .empty k
  | .deviceGetVersion => .deviceGetVersion
  | .deviceStateVersion _ _ _ => .deviceStateVersion
  | .deviceGetInfo => .deviceGetInfo
  | .deviceStateInfo _ _ _ => .deviceStateInfo
  | .lightState _ _ _ _ _ => .lightState

/-- The tag of a payload value's variant (rule R33). -/
def Payload.tag : Payload → BitVec 3
  | .empty _ => 0
  | .deviceGetVersion => 1
  | .deviceStateVersion _ _ _ => 2
  | .deviceGetInfo => 3
  | .deviceStateInfo _ _ _ => 4
  | .lightState _ _ _ _ _ => 5

/-- `kindOf(p)` (rules R13, R161). -/
def Payload.kind : Payload → BitVec 16
  | .empty k => k
  | .deviceGetVersion => 32
  | .deviceStateVersion _ _ _ => 33
  | .deviceGetInfo => 34
  | .deviceStateInfo _ _ _ => 35
  | .lightState _ _ _ _ _ => 107

/-- `LEN` of a payload value's variant. -/
def Payload.len (p : Payload) : Nat := payloadLen p.variant

/-! Busy bits (rules R29, R39). -/

/-- `DEC_BUSY`. -/
def State.decBusy (s : State) : Bool :=
  match s.decUnit with
  | .idle => false
  | .inFlight _ => true

/-- `ENC_BUSY`. -/
def State.encBusy (s : State) : Bool :=
  match s.encUnit with
  | .idle => false
  | .inFlight _ => true

/-! Completions. -/

/-- The payload registers of a variant receive its fields (rule R34); no other register is written. -/
def DecRegs.withPayload (r : DecRegs) : Payload → DecRegs
  | .empty _ => r
  | .deviceGetVersion => r
  | .deviceStateVersion vendor product version =>
    { r with pVendor := vendor, pProduct := product, pVersion := version }
  | .deviceGetInfo => r
  | .deviceStateInfo time uptime downtime => { r with pTime := time, pUptime := uptime, pDowntime := downtime }
  | .lightState color dim power label tags =>
    { r with
      pHue := color.hue, pSat := color.saturation, pBri := color.brightness, pKelvin := color.kelvin, pDim := dim,
      pPower := power, pLabel := label, pTags := tags }

/-- The result registers after an OK decode (rule R125): the header and window registers, the tag, and the registers of the
variant are written. The payload registers of every other variant become unspecified, which the tag says (rules R34, R36;
log 23). -/
def DecRegs.withResult (r : DecRegs) (h : Header) (win : Nat) (p : Payload) : DecRegs :=
  DecRegs.withPayload
    { r with
      size := h.size, version := h.version, addr := h.addressable, tagged := h.tagged, target := h.target, site := h.site,
      ack := h.acknowledge, atTime := h.atTime, kind := h.kind, winLen := BitVec.ofNat 16 win, ptag := p.tag }
    p

/-- Commit on OK of a DECODE (rule R125), one step. -/
def commitDecode (h : Header) (win : Nat) (p : Payload) (s : State) : State :=
  { s with decUnit := .idle, decStatus := statusOk, decRegs := s.decRegs.withResult h win p }

/-- Commit on OK of an ENCODE (rules R160, R184), one step: `ENC_OUT` holds the frame's bytes and no other. -/
def commitEncode (len : Nat) (out : Mem) (s : State) : State :=
  { s with encUnit := .idle, encStatus := statusOk, encOut := out, encLen := BitVec.ofNat 16 len }

/-- What raising an error does at its completion (60_exceptions.md rule R193): the unit's status is the error's code, which
makes all its results unspecified (rule R36; log 23), and nothing else changes. TruncatedInput on the decoder, ILLFORMED
on the encoder, which "changes `ENC_STATUS` only" (rule R184). -/
def raiseError (u : CodecUnit) (s : State) : State :=
  match u with
  | .dec => { s with decUnit := .idle, decStatus := statusError }
  | .enc => { s with encUnit := .idle, encStatus := statusError }

/-! Which results are specified (rule R36). -/

/-- The tag of the variant that a payload register belongs to (rule R34); none for the header registers. -/
def DecReg.payloadTag : DecReg → Option (BitVec 3)
  | .pVendor | .pProduct | .pVersion => some 2
  | .pTime | .pUptime | .pDowntime => some 4
  | .pHue | .pSat | .pBri | .pKelvin | .pDim | .pPower | .pLabel | .pTags => some 5
  | .size | .version | .addr | .tagged | .target | .site | .ack | .atTime | .kind | .winLen | .ptag => none

/-- Whether a decoder result register is specified: the last DECODE was OK, and a payload register is one of the variant
that `DEC_PTAG` names (rules R30, R34, R36). -/
def State.decSpecified (s : State) (r : DecReg) : Bool :=
  s.decStatus == statusOk &&
    match r.payloadTag with
    | none => true
    | some tag => tag == s.decRegs.ptag

/-- Whether `ENC_LEN` and the bytes below it are specified: the last ENCODE was OK (rules R36, R40). -/
def State.encSpecified (s : State) : Bool := s.encStatus == statusOk

/-- Reset (70_reset_and_hazards.md rules R220, R221): the block is in the state of rule R45, any transaction abandoned.
The model's own fields are the host's side and stay (log 19). -/
def resetState (s : State) : State :=
  { State.reset with mover := s.mover, agenda := s.agenda, hostRead := s.hostRead }

end Sys2Proof.Machine
end

