-- ==== Sys2Proof/Machine/Operands.lean ====
section
/-! DEFINITION. The operands of the two operations and of the payload formats: the header field reads (40_header_decode.md
rules R110 to R119), the payload window (rule R120), the sampled encoder inputs (10_state.md rule R38), the header field
writes (42_serialize.md rules R163 to R169), and the ill-formed check (rule R180). -/

namespace Sys2Proof.Machine

/-! Header field reads. -/

/-- Rule R110: `size`, bytes 0-1. -/
def readSize (input : List Byte) : Except TruncatedInput (BitVec 16) :=
  (memRead input 0 2).map (BitVec.ofNat 16)

/-- Rule R111: the protocol bitfield `pb`, bytes 2-3. -/
def readProtocol (input : List Byte) : Except TruncatedInput (BitVec 16) :=
  (memRead input 2 2).map (BitVec.ofNat 16)

/-- Rule R113: bytes 4-7 are read and discarded. -/
def readTransaction (input : List Byte) : Except TruncatedInput Unit :=
  (memRead input 4 4).map fun _ => ()

/-- Rule R114: `target`, bytes 8-15. -/
def readTarget (input : List Byte) : Except TruncatedInput (Bytes 8) := memReadBytes input 8 8

/-- Rule R115: `site`, bytes 16-21. -/
def readSite (input : List Byte) : Except TruncatedInput (Bytes 6) := memReadBytes input 16 6

/-- Rule R116: the ack-bitfield `ab`, bytes 22-23. -/
def readAck (input : List Byte) : Except TruncatedInput (BitVec 16) :=
  (memRead input 22 2).map (BitVec.ofNat 16)

/-- Rule R118: `at_time`, bytes 24-31. -/
def readAtTime (input : List Byte) : Except TruncatedInput (BitVec 64) :=
  (memRead input 24 8).map (BitVec.ofNat 64)

/-- Rule R119: `kind`, bytes 32-33. -/
def readKind (input : List Byte) : Except TruncatedInput (BitVec 16) :=
  (memRead input 32 2).map (BitVec.ofNat 16)

/-- Rule R119: the reserved tail, bytes 34-35, is read and discarded. -/
def readTail (input : List Byte) : Except TruncatedInput Unit :=
  (memRead input 34 2).map fun _ => ()

/-- The header stage (rules R110 to R119), the fields in order, stopping at the first short read. -/
def headerStage (input : List Byte) : Except TruncatedInput Header := do
  let size ← readSize input
  let pb ← readProtocol input
  readTransaction input
  let target ← readTarget input
  let site ← readSite input
  let ab ← readAck input
  let atTime ← readAtTime input
  let kind ← readKind input
  readTail input
  return {
    size := size, version := protocolVersion pb, addressable := protocolAddressable pb, tagged := protocolTagged pb,
    target := target, site := site, acknowledge := ackAcknowledge ab, atTime := atTime, kind := kind }

/-- Rule R120: `win = min(size -sat 36, DEC_LEN - 36)`; subtraction of naturals saturates. -/
def payloadWindow (size : BitVec 16) (decLen : Nat) : Nat := min (size.toNat - 36) (decLen - 36)

/-- The transaction that a DECODE request starts (rules R124, R43): the sampled input and the outcome of the header stage.
The cursor stands at the field that could not be read, or at 36, the first payload byte (rule R26). -/
def beginDecode (input : List Byte) : DecTxn :=
  match headerStage input with
  | .ok h => { input := input, cur := 36, stage := .payload h (payloadWindow h.size input.length) }
  | .error e => { input := input, cur := e.off, stage := .raised e }

/-- The input a DECODE samples: `DEC_LEN` and `DEC_IN[0 .. DEC_LEN-1]` (rule R124), if all were written (rule R222;
log 10). -/
def sampleDecode (s : State) : Option (List Byte) :=
  match s.decLen.get? with
  | none => none
  | some n => s.decIn.readRange 0 n

/-! Encoder operands. -/

/-- The payload value that the encoder inputs name (rules R33, R38): only the inputs of the tag's variant are read.
`some none` where the tag is reserved; `none` where a needed input was never written. -/
def samplePayload (r : EncRegs) (tag : BitVec 3) : Option (Option Payload) :=
  if tag = 0 then do
    let k ← r.emptyKind.get?
    return some (.empty k)
  else if tag = 1 then some (some .deviceGetVersion)
  else if tag = 2 then do
    let vendor ← r.pVendor.get?
    let product ← r.pProduct.get?
    let version ← r.pVersion.get?
    return some (.deviceStateVersion vendor product version)
  else if tag = 3 then some (some .deviceGetInfo)
  else if tag = 4 then do
    let time ← r.pTime.get?
    let uptime ← r.pUptime.get?
    let downtime ← r.pDowntime.get?
    return some (.deviceStateInfo time uptime downtime)
  else if tag = 5 then do
    let hue ← r.pHue.get?
    let saturation ← r.pSat.get?
    let brightness ← r.pBri.get?
    let kelvin ← r.pKelvin.get?
    let dim ← r.pDim.get?
    let power ← r.pPower.get?
    let label ← r.pLabel.get?
    let tags ← r.pTags.get?
    return some (.lightState ⟨hue, saturation, brightness, kelvin⟩ dim power label tags)
  else some none

/-- The inputs an ENCODE samples (rules R38, R160), if those that rule R222 names were all written (log 10). -/
def sampleEncode (r : EncRegs) : Option EncSample := do
  let version ← r.version.get?
  let addressable ← r.addr.get?
  let tagged ← r.tagged.get?
  let target ← r.target.get?
  let site ← r.site.get?
  let acknowledge ← r.ack.get?
  let atTime ← r.atTime.get?
  let tag ← r.ptag.get?
  let payload ← samplePayload r tag
  return {
    version := version, addressable := addressable, tagged := tagged, target := target, site := site,
    acknowledge := acknowledge, atTime := atTime, payload := payload }

/-- Rule R180: a version of 4096 or more, a reserved tag, or an Empty whose kind names another variant. -/
def illFormed (e : EncSample) : Bool :=
  decide (4096 ≤ e.version.toNat) ||
    match e.payload with
    | none => true
    | some (.empty k) => tableKind k
    | some _ => false

/-! Header field writes. -/

/-- Rule R163: `size`. -/
def writeSize (size : Nat) (m : Mem) : Mem := memWrite 0 2 size m

/-- Rule R164: the protocol bitfield. -/
def writeProtocol (e : EncSample) (m : Mem) : Mem :=
  memWrite 2 2 (packProtocol e.version e.addressable e.tagged).toNat m

/-- Rule R165: the transaction/reserved field is zero. -/
def writeTransaction (m : Mem) : Mem := memWrite 4 4 0 m

/-- Rule R166: `target` and `site`. -/
def writeTargetSite (e : EncSample) (m : Mem) : Mem :=
  memWriteBytes 16 e.site.toList (memWriteBytes 8 e.target.toList m)

/-- Rule R167: the ack-bitfield. -/
def writeAck (e : EncSample) (m : Mem) : Mem := memWrite 22 2 (packAck e.acknowledge).toNat m

/-- Rule R168: `at_time`. -/
def writeAtTime (e : EncSample) (m : Mem) : Mem := memWrite 24 8 e.atTime.toNat m

/-- Rule R169: `kind` and the reserved tail. -/
def writeKindTail (kind : BitVec 16) (m : Mem) : Mem := memWrite 34 2 0 (memWrite 32 2 kind.toNat m)

/-- The header writes of rule R160 for a payload value: `size = 36 + LEN(V)` (rule R162), `kind = kindOf(payload)` (rule
R161), into an output that holds nothing yet. -/
def headerWrites (e : EncSample) (p : Payload) : Mem :=
  writeKindTail p.kind (writeAtTime e (writeAck e (writeTargetSite e (writeTransaction (writeProtocol e
    (writeSize (36 + p.len) []))))))

/-- The transaction that an ENCODE request starts (rules R160, R180, R43). A reserved tag has no payload and is
ill-formed. -/
def beginEncode (e : EncSample) : EncTxn :=
  match illFormed e, e.payload with
  | false, some p => { sample := e, stage := .headerWritten (headerWrites e p) }
  | _, _ => { sample := e, stage := .illFormed }

end Sys2Proof.Machine
end

