-- ==== Sys2Proof/Machine/Request.lean ====
section
/-! DEFINITION. The two operations of the request vector (30_encoding.md rule R101): DECODE (40_header_decode.md rule R124)
and ENCODE (42_serialize.md rule R160), each from its request to the point where the payload format takes over. Their
results stay private until the unit's completion (10_state.md rule R43; log 3). -/

namespace Sys2Proof.Machine

/-- DECODE (rule R124): `DEC_BUSY <- 1`, the input sampled, the header stage run, the window and the kind known. A request
to a busy unit has no step (rule R230), whatever its inputs hold (log 8). Of a request whose needed inputs were never
written since reset rule R222 says "a model treats it as a fault", and I8 gives the treatment `fault` (log 10). -/
def execDecode (s : State) : Host.Outcome State Fault Refusal :=
  match s.decUnit with
  | .inFlight _ => .refused .hostActsWhileBusy
  | .idle =>
    match sampleDecode s with
    | none => .fault .inputNotWritten
    | some input => .next { s with decUnit := .inFlight (beginDecode input) }

/-- ENCODE (rule R160): `ENC_BUSY <- 1`, the inputs sampled, the ill-formed check, the header writes into the private
output. A request to a busy unit has no step (rule R230), whatever its inputs hold (log 8). Of a request whose needed
inputs were never written since reset rule R222 says "a model treats it as a fault" (I8, log 10). -/
def execEncode (s : State) : Host.Outcome State Fault Refusal :=
  match s.encUnit with
  | .inFlight _ => .refused .hostActsWhileBusy
  | .idle =>
    match sampleEncode s.encIn with
    | none => .fault .inputNotWritten
    | some e => .next { s with encUnit := .inFlight (beginEncode e) }

end Sys2Proof.Machine
end

