-- ==== Sys2Proof/Machine/Variants.lean ====
section
/-! DEFINITION. The six payload formats (41_payload_decode.md rules R141 to R146, 42_serialize.md rules R171 to R176). A
format runs on the unit whose move it is: on the decoder it reads the payload window and commits the DECODE, on the
encoder it writes the payload bytes and commits the ENCODE. -/

namespace Sys2Proof.Machine

/-- The completion of a DECODE by a payload rule (rules R122, R124): the rule gives the payload value from the sampled
input and the window, and the results are committed (rule R125), or it raises TruncatedInput (rule R193). The unit runs
only the format that the kind selects (rule R121). -/
def completeDecode (i : Instr) (rule : List Byte → Nat → Except TruncatedInput Payload) (s : State) :
    Host.Outcome State Fault Refusal :=
  match s.decUnit with
  | .inFlight { input := input, cur := _, stage := .payload h win } =>
    if decodeKind h.kind = i then
      match rule input win with
      | .ok p => .next (commitDecode h win p s)
      | .error _ => .next (raiseError .dec s)
    else .refused .notRouted
  | _ => .refused .notRouted

/-- The completion of an ENCODE by a payload rule (rule R160): the rule writes the payload bytes behind the header bytes,
and the frame is committed (rule R184) with `ENC_LEN = 36 + LEN(V)` (rule R162). The unit runs only the format that the
tag selects. -/
def completeEncode (i : Instr) (rule : Payload → Mem → Mem) (s : State) : Host.Outcome State Fault Refusal :=
  match s.encUnit with
  | .inFlight { sample := e, stage := .headerWritten out } =>
    match e.payload with
    | some p =>
      if p.variant = i then .next (commitEncode (36 + payloadLen i) (rule p out) s)
      else .refused .notRouted
    | none => .refused .notRouted
  | _ => .refused .notRouted

/-- A payload format: its decode rule on the decoder, its encode rule on the encoder. -/
def runVariant (i : Instr) (decRule : List Byte → Nat → Except TruncatedInput Payload)
    (encRule : Payload → Mem → Mem) (s : State) : Host.Outcome State Fault Refusal :=
  match s.mover with
  | .dec => completeDecode i decRule s
  | .enc => completeEncode i encRule s

/-! Decode rules. -/

/-- Rule R142. -/
def readStateVersion (input : List Byte) (win : Nat) : Except TruncatedInput Payload := do
  let vendor ← pRead input win 0 4
  let product ← pRead input win 4 4
  let version ← pRead input win 8 4
  return .deviceStateVersion (BitVec.ofNat 32 vendor) (BitVec.ofNat 32 product) (BitVec.ofNat 32 version)

/-- Rule R144. -/
def readStateInfo (input : List Byte) (win : Nat) : Except TruncatedInput Payload := do
  let time ← pRead input win 0 8
  let uptime ← pRead input win 8 8
  let downtime ← pRead input win 16 8
  return .deviceStateInfo (BitVec.ofNat 64 time) (BitVec.ofNat 64 uptime) (BitVec.ofNat 64 downtime)

/-- Rule R145; `dim` keeps its 16 bits (rule R147). -/
def readLightState (input : List Byte) (win : Nat) : Except TruncatedInput Payload := do
  let hue ← pRead input win 0 2
  let saturation ← pRead input win 2 2
  let brightness ← pRead input win 4 2
  let kelvin ← pRead input win 6 2
  let dim ← pRead input win 8 2
  let power ← pRead input win 10 2
  let label ← pReadBytes input win 12 32
  let tags ← pRead input win 44 8
  return .lightState
    ⟨BitVec.ofNat 16 hue, BitVec.ofNat 16 saturation, BitVec.ofNat 16 brightness, BitVec.ofNat 16 kelvin⟩
    (BitVec.ofNat 16 dim) (BitVec.ofNat 16 power) label (BitVec.ofNat 64 tags)

/-! Encode rules. Each runs only on a payload of its own variant. -/

/-- Rules R171, R172, R174: no payload byte. -/
def writeNoFields (_ : Payload) (m : Mem) : Mem := m

/-- Rule R173. -/
def writeStateVersion : Payload → Mem → Mem
  | .deviceStateVersion vendor product version, m =>
    pWrite 8 4 version.toNat (pWrite 4 4 product.toNat (pWrite 0 4 vendor.toNat m))
  | _, m => m

/-- Rule R175. -/
def writeStateInfo : Payload → Mem → Mem
  | .deviceStateInfo time uptime downtime, m =>
    pWrite 16 8 downtime.toNat (pWrite 8 8 uptime.toNat (pWrite 0 8 time.toNat m))
  | _, m => m

/-- Rule R176; an i16 is written as its 16 bits. -/
def writeLightState : Payload → Mem → Mem
  | .lightState color dim power label tags, m =>
    pWrite 44 8 tags.toNat (pWriteBytes 12 label.toList (pWrite 10 2 power.toNat (pWrite 8 2 dim.toNat
      (pWrite 6 2 color.kelvin.toNat (pWrite 4 2 color.brightness.toNat (pWrite 2 2 color.saturation.toNat
        (pWrite 0 2 color.hue.toNat m)))))))
  | _, m => m

/-! The meanings. -/

/-- Kind 32 (rules R141, R172): no window byte is read, no payload byte written. -/
def execDeviceGetVersion (s : State) : Host.Outcome State Fault Refusal :=
  runVariant .deviceGetVersion (fun _ _ => .ok .deviceGetVersion) writeNoFields s

/-- Kind 33 (rules R142, R173). -/
def execDeviceStateVersion (s : State) : Host.Outcome State Fault Refusal :=
  runVariant .deviceStateVersion readStateVersion writeStateVersion s

/-- Kind 34 (rules R143, R174). -/
def execDeviceGetInfo (s : State) : Host.Outcome State Fault Refusal :=
  runVariant .deviceGetInfo (fun _ _ => .ok .deviceGetInfo) writeNoFields s

/-- Kind 35 (rules R144, R175). -/
def execDeviceStateInfo (s : State) : Host.Outcome State Fault Refusal :=
  runVariant .deviceStateInfo readStateInfo writeStateInfo s

/-- Kind 107 (rules R145, R176). -/
def execLightState (s : State) : Host.Outcome State Fault Refusal :=
  runVariant .lightState readLightState writeLightState s

/-- Every other kind (rules R146, R171): the payload value carries the kind. -/
def execEmpty (kind : BitVec 16) (s : State) : Host.Outcome State Fault Refusal :=
  runVariant (.empty kind) (fun _ _ => .ok (.empty kind)) writeNoFields s

end Sys2Proof.Machine
end

