-- ==== Sys2Proof/Machine/Dispatch.lean ====
section
/-! DEFINITION. exec: one arm per instruction, each a direct call of its meaning. -/

namespace Sys2Proof.Machine

def exec (i : Instr) (s : State) : Host.Outcome State Fault Refusal :=
  match i with
  | .deviceGetVersion => Sys2Proof.Machine.execDeviceGetVersion s
  | .deviceStateVersion => Sys2Proof.Machine.execDeviceStateVersion s
  | .deviceGetInfo => Sys2Proof.Machine.execDeviceGetInfo s
  | .deviceStateInfo => Sys2Proof.Machine.execDeviceStateInfo s
  | .lightState => Sys2Proof.Machine.execLightState s
  | .empty kind => Sys2Proof.Machine.execEmpty kind s
  | .decode => Sys2Proof.Machine.execDecode s
  | .encode => Sys2Proof.Machine.execEncode s

end Sys2Proof.Machine
end

