-- ==== Sys2Proof/Machine/HostPort.lean ====
section
/-! DEFINITION. The host's actions (30_encoding.md rules R101, R102; 70_reset_and_hazards.md rules R220 to R234) and the
fetch: which payload format a unit's completion runs (40_header_decode.md rule R122, 42_serialize.md rule R160). -/

namespace Sys2Proof.Machine

/-! Host writes (rules R27, R28, R38, R231). -/

/-- Whether an offset of `DEC_IN` must stay stable: a DECODE is in flight and the offset is below `min(DEC_LEN, 88)`
(rule R231). -/
def decInHeld (s : State) (i : Nat) : Bool :=
  match s.decUnit with
  | .idle => false
  | .inFlight t => decide (i < min t.input.length 88)

/-- `DEC_IN[i] <- b`. The first test is the second one's for a capacity of 88, the least there is (rule R7). -/
def hostWriteDecIn (i : Nat) (b : Byte) (s : State) : Host.Outcome State Fault Refusal :=
  if i < 88 ∨ i < Config.maxInLen then
    if decInHeld s i then .fault .inputChangedInFlight
    else .next { s with decIn := s.decIn.write i b }
  else .fault .outsideBuffer

/-- `DEC_LEN <- n`. A length outside the buffer is looked at first (log 11). -/
def hostWriteDecLen (n : Nat) (s : State) : Host.Outcome State Fault Refusal :=
  if n ≤ 88 ∨ n ≤ Config.maxInLen then
    if s.decBusy then .fault .inputChangedInFlight
    else .next { s with decLen := .holds n }
  else .fault .outsideBuffer

/-- A write of one encoder input (rule R38). -/
def EncRegs.set (r : EncRegs) : EncWrite → EncRegs
  | .version v => { r with version := .holds v }
  | .addr v => { r with addr := .holds v }
  | .tagged v => { r with tagged := .holds v }
  | .target v => { r with target := .holds v }
  | .site v => { r with site := .holds v }
  | .ack v => { r with ack := .holds v }
  | .atTime v => { r with atTime := .holds v }
  | .ptag v => { r with ptag := .holds v }
  | .emptyKind v => { r with emptyKind := .holds v }
  | .pVendor v => { r with pVendor := .holds v }
  | .pProduct v => { r with pProduct := .holds v }
  | .pVersion v => { r with pVersion := .holds v }
  | .pTime v => { r with pTime := .holds v }
  | .pUptime v => { r with pUptime := .holds v }
  | .pDowntime v => { r with pDowntime := .holds v }
  | .pHue v => { r with pHue := .holds v }
  | .pSat v => { r with pSat := .holds v }
  | .pBri v => { r with pBri := .holds v }
  | .pKelvin v => { r with pKelvin := .holds v }
  | .pDim v => { r with pDim := .holds v }
  | .pPower v => { r with pPower := .holds v }
  | .pLabel v => { r with pLabel := .holds v }
  | .pTags v => { r with pTags := .holds v }

/-- A host write of one encoder input, not while an ENCODE is in flight (rule R231). -/
def hostWriteEnc (w : EncWrite) (s : State) : Host.Outcome State Fault Refusal :=
  if s.encBusy then .fault .inputChangedInFlight
  else .next { s with encIn := s.encIn.set w }

/-! Host reads (rules R36, R37, R230). -/

/-- The value of a decoder result register. `DEC_P_DIM` is read as signed (rule R147). -/
def DecRegs.readValue (r : DecRegs) : DecReg → ReadValue
  | .size => .unsigned r.size.toNat
  | .version => .unsigned r.version.toNat
  | .addr => .flag r.addr
  | .tagged => .flag r.tagged
  | .target => .bytes r.target.toList
  | .site => .bytes r.site.toList
  | .ack => .flag r.ack
  | .atTime => .unsigned r.atTime.toNat
  | .kind => .unsigned r.kind.toNat
  | .winLen => .unsigned r.winLen.toNat
  | .ptag => .unsigned r.ptag.toNat
  | .pVendor => .unsigned r.pVendor.toNat
  | .pProduct => .unsigned r.pProduct.toNat
  | .pVersion => .unsigned r.pVersion.toNat
  | .pTime => .unsigned r.pTime.toNat
  | .pUptime => .unsigned r.pUptime.toNat
  | .pDowntime => .unsigned r.pDowntime.toNat
  | .pHue => .unsigned r.pHue.toNat
  | .pSat => .unsigned r.pSat.toNat
  | .pBri => .unsigned r.pBri.toNat
  | .pKelvin => .unsigned r.pKelvin.toNat
  | .pDim => .signed (signedDim r.pDim)
  | .pPower => .unsigned r.pPower.toNat
  | .pLabel => .bytes r.pLabel.toList
  | .pTags => .unsigned r.pTags.toNat

/-- What the host gets from a read: the value goes to `hostRead` (log 7), or what it reads is unspecified, and "A model must
treat a host read of it as a fault (never as zero, never as the value of an earlier transaction)" (rule R36). -/
def deliver (s : State) : Option ReadValue → Host.Outcome State Fault Refusal
  | some v => .next { s with hostRead := some v }
  | none => .fault .unspecifiedRead

/-- The byte of `ENC_OUT` that the host reads: it is specified below `ENC_LEN` of an OK encode (rules R36, R40). -/
def State.outByte (s : State) (i : Nat) : Option Byte :=
  if s.encSpecified ∧ i < s.encLen.toNat then s.encOut.read i else none

/-- A read of a status register; the reserved 0b11 is unreachable (rules R30, R40, I9; log 20). -/
def deliverStatus (s : State) (status : BitVec 2) : Host.Outcome State Fault Refusal :=
  if status = statusReserved then .refused .reservedStatus
  else .next { s with hostRead := some (.unsigned status.toNat) }

/-- A host read. The busy bits can be read at any time; a busy unit's status and results cannot (rule R230), which is
looked at before all else (log 8). -/
def hostReadReg (r : ReadReg) (s : State) : Host.Outcome State Fault Refusal :=
  match r with
  | .decBusy => .next { s with hostRead := some (.flag s.decBusy) }
  | .encBusy => .next { s with hostRead := some (.flag s.encBusy) }
  | .decStatus => if s.decBusy then .refused .hostActsWhileBusy else deliverStatus s s.decStatus
  | .encStatus => if s.encBusy then .refused .hostActsWhileBusy else deliverStatus s s.encStatus
  | .encLen =>
    if s.encBusy then .refused .hostActsWhileBusy
    else deliver s (if s.encSpecified then some (.unsigned s.encLen.toNat) else none)
  | .encOut i =>
    if s.encBusy then .refused .hostActsWhileBusy
    else if i < 88 then deliver s ((s.outByte i).map fun b => .unsigned b.toNat)
    else .fault .outsideBuffer
  | .dec r =>
    if s.decBusy then .refused .hostActsWhileBusy
    else deliver s (if s.decSpecified r then some (s.decRegs.readValue r) else none)

/-- The host copy `COPY` (rule R102): `ENC_OUT[0 .. ENC_LEN-1]` to `DEC_IN`, `DEC_LEN <- ENC_LEN`. It reads the encoder's
outputs (rules R36, R230) and writes the decoder's inputs (rule R231). -/
def hostCopy (s : State) : Host.Outcome State Fault Refusal :=
  if s.encBusy then .refused .hostActsWhileBusy
  else if s.decBusy then .fault .inputChangedInFlight
  else if s.encSpecified then
    match s.encOut.readRange 0 s.encLen.toNat with
    | none => .fault .unspecifiedRead
    | some bs => .next { s with decIn := memWriteBytes 0 bs s.decIn, decLen := .holds s.encLen.toNat }
  else .fault .unspecifiedRead

/-! Requests (rule R101). -/

/-- Instructions run in order, stopping at the first that gives no next state. That the first stop is the one reported is
the model's choice (log 8). -/
def runAll : List Instr → State → Host.Outcome State Fault Refusal
  | [], s => .next s
  | i :: is, s =>
    match exec i s with
    | .next t => runAll is t
    | .fault f => .fault f
    | .refused r => .refused r

/-- The request vector of one cycle: each operation it requests starts its unit; `0b00` requests nothing (rule R101). For
`0b11` DECODE is taken first (log 13), so that where both requests stop, the answer is DECODE's stop: the spec gives no
precedence between rules R222 and R230 (log 8). -/
def hostRequest (r : BitVec 2) (s : State) : Host.Outcome State Fault Refusal := runAll (decodeReq r) s

/-- One action of the host. -/
def hostAct (a : HostAct) (s : State) : Host.Outcome State Fault Refusal :=
  match a with
  | .writeDecIn i b => hostWriteDecIn i b s
  | .writeDecLen n => hostWriteDecLen n s
  | .writeEnc w => hostWriteEnc w s
  | .request r => hostRequest r s
  | .read r => hostReadReg r s
  | .copy => hostCopy s
  | .reset => .next (resetState s)

/-! A unit's completion. -/

/-- What a unit's move does. -/
inductive Move where
  /-- No transaction is in flight. -/
  | idle
  /-- The transaction in flight reports its error (rule R193). -/
  | raise
  /-- The transaction in flight runs this payload format. -/
  | run (i : Instr)
  deriving DecidableEq, Repr

/-- The fetch of a unit: the decoder's format is the one that the frame's kind selects (rules R121, R122), the encoder's
the one of the sampled payload (rule R160). -/
def fetch (u : CodecUnit) (s : State) : Move :=
  match u with
  | .dec =>
    match s.decUnit with
    | .idle => .idle
    | .inFlight t =>
      match t.stage with
      | .raised _ => .raise
      | .payload h _ => .run (decodeKind h.kind)
  | .enc =>
    match s.encUnit with
    | .idle => .idle
    | .inFlight t =>
      match t.stage, t.sample.payload with
      | .headerWritten _, some p => .run p.variant
      | _, _ => .raise

/-- A unit's move: it completes its transaction in flight, if it has one (rules R124, R160, R196). -/
def unitMove (u : CodecUnit) (s : State) : Host.Outcome State Fault Refusal :=
  match fetch u s with
  | .idle => .next s
  | .raise => .next (raiseError u s)
  | .run i => exec i { s with mover := u }

/-- Whose move it is when the agenda is empty: a busy unit's, so that every transaction completes (rule R235; log 5). -/
def drainUnit (s : State) : CodecUnit := if s.decBusy then .dec else .enc

end Sys2Proof.Machine
end

