-- ==== Sys2Proof/Machine/Step.lean ====
section
/-! DEFINITION. One step: the next entry of the agenda, or, when it is empty, a busy unit's completion; and the placing of
an instruction where the next step runs it. -/

namespace Sys2Proof.Machine

/-- One step of the block and its host (10_state.md rule R20, 20_memory.md rule R71; log 4, 5). -/
def step (s : State) : Host.Outcome State Fault Refusal :=
  match s.agenda with
  | .host a :: rest => hostAct a { s with agenda := rest }
  | .unit u :: rest => unitMove u { s with agenda := rest }
  | [] => unitMove (drainUnit s) s

/-- A frame of 88 bytes, all zero but the declared size 88 and the kind, so that every variant's fields are present
(log 13). -/
def probeFrame (kind : Nat) : List Byte :=
  leBytes 2 88 ++ List.replicate 30 0 ++ leBytes 2 kind ++ List.replicate 54 0

/-- Every encoder input zero. -/
def zeroEncIn : EncRegs where
  version := .holds 0
  addr := .holds false
  tagged := .holds false
  target := .holds (Bytes.zero 8)
  site := .holds (Bytes.zero 6)
  ack := .holds false
  atTime := .holds 0
  ptag := .holds 0
  emptyKind := .holds 0
  pVendor := .holds 0
  pProduct := .holds 0
  pVersion := .holds 0
  pTime := .holds 0
  pUptime := .holds 0
  pDowntime := .holds 0
  pHue := .holds 0
  pSat := .holds 0
  pBri := .holds 0
  pKelvin := .holds 0
  pDim := .holds 0
  pPower := .holds 0
  pLabel := .holds (Bytes.zero 32)
  pTags := .holds 0

/-- The state whose next step runs the instruction of a table word (log 13). A request is put first on the agenda, with
its units idle and their inputs zero; a kind is put into the frame of a DECODE in flight, whose completion is put first
on the agenda. A word that is no instruction is placed nowhere. -/
def State.withFetchWord (s : State) (nbits w : Nat) : State :=
  match decodeTableWord nbits w with
  | some .decode | some .encode =>
    { s with
      decIn := memWriteBytes 0 (List.replicate 36 0) []
      decLen := .holds 36
      decUnit := .idle
      encIn := zeroEncIn
      encUnit := .idle
      agenda := .host (.request (BitVec.ofNat 2 w)) :: s.agenda }
  | none => s
  | some _ =>
    { s with
      decIn := memWriteBytes 0 (probeFrame w) []
      decLen := .holds 88
      decUnit := .inFlight (beginDecode (probeFrame w))
      agenda := .unit .dec :: s.agenda }

end Sys2Proof.Machine
end

