-- ==== Sys2Proof/Safety.lean ====
section
/-! DEFINITION. The terms that claims are stated in: the codec as two functions on byte strings and messages (10_state.md
rule R25), written from the frame layout of 30_encoding.md without reads, cursors or buffers; valid messages
(42_serialize.md rule R181); and the invariant of the machine's states. -/

namespace Sys2Proof.Machine

/-! The frame layout (rules R81, R95 to R99). -/

/-- The little-endian value of the `n` bytes at an offset (rule R62). -/
def frameNat (b : List Byte) (off n : Nat) : Nat := leNat ((b.drop off).take n)

/-- The `n` bytes at an offset, as they stand (rule R63); zeros stand for bytes past the end. -/
def frameBytes (b : List Byte) (off n : Nat) : Bytes n := ⟨(b.drop off).takeD n 0, List.takeD_length ..⟩

/-- The header of a frame (rules R81 to R83). -/
def frameHeader (b : List Byte) : Header where
  size := BitVec.ofNat 16 (frameNat b 0 2)
  version := BitVec.ofNat 12 (frameNat b 2 2)
  addressable := frameNat b 2 2 / 4096 % 2 == 1
  tagged := frameNat b 2 2 / 8192 % 2 == 1
  target := frameBytes b 8 8
  site := frameBytes b 16 6
  acknowledge := frameNat b 22 2 % 2 == 1
  atTime := BitVec.ofNat 64 (frameNat b 24 8)
  kind := BitVec.ofNat 16 (frameNat b 32 2)

/-- The payload of a frame of a kind (rules R95 to R99). -/
def framePayload (kind : BitVec 16) (b : List Byte) : Payload :=
  match kind.toNat with
  | 32 => .deviceGetVersion
  | 33 =>
    .deviceStateVersion (BitVec.ofNat 32 (frameNat b 36 4)) (BitVec.ofNat 32 (frameNat b 40 4))
      (BitVec.ofNat 32 (frameNat b 44 4))
  | 34 => .deviceGetInfo
  | 35 =>
    .deviceStateInfo (BitVec.ofNat 64 (frameNat b 36 8)) (BitVec.ofNat 64 (frameNat b 44 8))
      (BitVec.ofNat 64 (frameNat b 52 8))
  | 107 =>
    .lightState
      ⟨BitVec.ofNat 16 (frameNat b 36 2), BitVec.ofNat 16 (frameNat b 38 2), BitVec.ofNat 16 (frameNat b 40 2),
        BitVec.ofNat 16 (frameNat b 42 2)⟩
      (BitVec.ofNat 16 (frameNat b 44 2)) (BitVec.ofNat 16 (frameNat b 46 2)) (frameBytes b 48 32)
      (BitVec.ofNat 64 (frameNat b 80 8))
  | _ => .empty kind

/-- `LEN(route(kind))` (rules R6, R95). -/
def kindLen (kind : BitVec 16) : Nat :=
  match kind.toNat with
  | 33 => 12
  | 35 => 24
  | 107 => 52
  | _ => 0

/-- The payload window length of a frame (rule R120). -/
def frameWindow (b : List Byte) : Nat := min ((frameHeader b).size.toNat - 36) (b.length - 36)

/-- The decode outcome as one value (rules R25, R190): the message and the window length, or none for TruncatedInput. -/
def decodeFrame (b : List Byte) : Option (Message × Nat) :=
  if 36 ≤ b.length ∧ kindLen (frameHeader b).kind ≤ frameWindow b then
    some (⟨frameHeader b, framePayload (frameHeader b).kind b⟩, frameWindow b)
  else none

/-- The payload bytes of a payload value (rules R96 to R99, R171 to R176). -/
def payloadBytes : Payload → List Byte
  | .empty _ => []
  | .deviceGetVersion => []
  | .deviceStateVersion vendor product version =>
    leBytes 4 vendor.toNat ++ leBytes 4 product.toNat ++ leBytes 4 version.toNat
  | .deviceGetInfo => []
  | .deviceStateInfo time uptime downtime =>
    leBytes 8 time.toNat ++ leBytes 8 uptime.toNat ++ leBytes 8 downtime.toNat
  | .lightState color dim power label tags =>
    leBytes 2 color.hue.toNat ++ leBytes 2 color.saturation.toNat ++ leBytes 2 color.brightness.toNat ++
      leBytes 2 color.kelvin.toNat ++ leBytes 2 dim.toNat ++ leBytes 2 power.toNat ++ label.toList ++
      leBytes 8 tags.toNat

/-- The 36 header bytes that the encoder writes (rules R81, R161 to R169). -/
def headerBytes (e : EncSample) (p : Payload) : List Byte :=
  leBytes 2 (36 + kindLen p.kind) ++
    leBytes 2 (e.version.toNat + (if e.addressable then 4096 else 0) + (if e.tagged then 8192 else 0)) ++
    leBytes 4 0 ++ e.target.toList ++ e.site.toList ++ leBytes 2 (if e.acknowledge then 1 else 0) ++
    leBytes 8 e.atTime.toNat ++ leBytes 2 p.kind.toNat ++ leBytes 2 0

/-- The encode outcome as one value (rules R25, R160, R180): the frame's bytes, or none for ILLFORMED. -/
def encodeFrame (e : EncSample) : Option (List Byte) :=
  match e.payload with
  | none => none
  | some p => if illFormed e then none else some (headerBytes e p ++ payloadBytes p)

/-- A buffer that holds these bytes from offset 0 on and nothing else. -/
def Mem.ofBytes (b : List Byte) : Mem := (List.range b.length).zip b

/-! Messages. -/

/-- A valid message (rule R181); the version is below 4096 by its type. -/
def Message.valid (m : Message) : Bool :=
  m.header.kind == m.payload.kind && m.payload.variant.wellFormed &&
    m.header.size.toNat == 36 + kindLen m.payload.kind

/-- The encoder inputs that a message names (rules R38, R160): there is no size and no header-kind input. -/
def Message.sample (m : Message) : EncSample where
  version := m.header.version.setWidth 16
  addressable := m.header.addressable
  tagged := m.header.tagged
  target := m.header.target
  site := m.header.site
  acknowledge := m.header.acknowledge
  atTime := m.header.atTime
  payload := some m.payload

/-! What a host sees of a state. -/

/-- The state a DECODE leaves (rules R124, R125, R193): the unit idle, and the outcome in the status and the result
registers; nothing else changes. -/
def decodeOutcome (b : List Byte) (s : State) : State :=
  match decodeFrame b with
  | some (m, win) =>
    { s with decUnit := .idle, decStatus := statusOk, decRegs := s.decRegs.withResult m.header win m.payload }
  | none => { s with decUnit := .idle, decStatus := statusError }

/-- The state an ENCODE leaves (rules R160, R184, R193). -/
def encodeOutcome (e : EncSample) (s : State) : State :=
  match encodeFrame e with
  | some b =>
    { s with
      encUnit := .idle, encStatus := statusOk, encOut := Mem.ofBytes b, encLen := BitVec.ofNat 16 b.length }
  | none => { s with encUnit := .idle, encStatus := statusError }

/-- One operation, from its request to its completion by the unit's next move. -/
def transact (i : Instr) (u : CodecUnit) (s : State) : Host.Outcome State Fault Refusal :=
  match exec i s with
  | .next t => unitMove u t
  | .fault f => .fault f
  | .refused r => .refused r

/-- The wire bits of a frame's header that a decode keeps, by byte: it ignores bits 15..14 of the protocol bitfield (byte
3), the transaction field (bytes 4-7), bits 15..1 of the ack-bitfield (bytes 22-23) and the reserved tail (bytes 34-35)
(rules R82, R83, R88). -/
def keptBits (i : Nat) : Byte :=
  if i = 3 then 0x3F
  else if i = 22 then 0x01
  else if i ∈ [4, 5, 6, 7, 23, 34, 35] then 0
  else 0xFF

/-- Two frames that agree in every bit a decode keeps (rule R88); they have one length. -/
def sameKept (b d : List Byte) : Prop :=
  ∀ i : Nat, b[i]?.map (· &&& keptBits i) = d[i]?.map (· &&& keptBits i)

/-- The header, window and tag registers hold these values (rules R31 to R33, R125). -/
def DecRegs.hasHeader (r : DecRegs) (h : Header) (win : Nat) (tag : BitVec 3) : Prop :=
  r.size = h.size ∧ r.version = h.version ∧ r.addr = h.addressable ∧ r.tagged = h.tagged ∧ r.target = h.target ∧
    r.site = h.site ∧ r.ack = h.acknowledge ∧ r.atTime = h.atTime ∧ r.kind = h.kind ∧
    r.winLen = BitVec.ofNat 16 win ∧ r.ptag = tag

/-- The payload registers of the variant hold its fields (rules R34, R125). -/
def DecRegs.hasPayload (r : DecRegs) : Payload → Prop
  | .empty _ => True
  | .deviceGetVersion => True
  | .deviceStateVersion vendor product version => r.pVendor = vendor ∧ r.pProduct = product ∧ r.pVersion = version
  | .deviceGetInfo => True
  | .deviceStateInfo time uptime downtime => r.pTime = time ∧ r.pUptime = uptime ∧ r.pDowntime = downtime
  | .lightState color dim power label tags =>
    r.pHue = color.hue ∧ r.pSat = color.saturation ∧ r.pBri = color.brightness ∧ r.pKelvin = color.kelvin ∧
      r.pDim = dim ∧ r.pPower = power ∧ r.pLabel = label ∧ r.pTags = tags

/-- What a host read delivers; none where it stops. -/
def delivered (r : ReadReg) (s : State) : Option ReadValue :=
  match hostReadReg r s with
  | .next t => t.hostRead
  | .fault _ => none
  | .refused _ => none

/-- The decoder is idle and its inputs hold the bytes `b` (rules R27, R28, R222). -/
def State.decodeReady (s : State) (b : List Byte) : Prop :=
  s.decUnit = .idle ∧ s.decLen = .holds b.length ∧ ∀ i, i < b.length → s.decIn.read i = b[i]?

/-- The encoder inputs hold this payload: the tag of its variant, or a reserved one, in `ENC_PTAG` (rule R33), and each
field in the input that rule R38 names for it. -/
def EncRegs.holdPayload (r : EncRegs) : Option Payload → Prop
  | none => r.ptag = .holds 6 ∨ r.ptag = .holds 7
  | some (.empty kind) => r.ptag = .holds 0 ∧ r.emptyKind = .holds kind
  | some .deviceGetVersion => r.ptag = .holds 1
  | some (.deviceStateVersion vendor product version) =>
    r.ptag = .holds 2 ∧ r.pVendor = .holds vendor ∧ r.pProduct = .holds product ∧ r.pVersion = .holds version
  | some .deviceGetInfo => r.ptag = .holds 3
  | some (.deviceStateInfo time uptime downtime) =>
    r.ptag = .holds 4 ∧ r.pTime = .holds time ∧ r.pUptime = .holds uptime ∧ r.pDowntime = .holds downtime
  | some (.lightState color dim power label tags) =>
    r.ptag = .holds 5 ∧ r.pHue = .holds color.hue ∧ r.pSat = .holds color.saturation ∧
      r.pBri = .holds color.brightness ∧ r.pKelvin = .holds color.kelvin ∧ r.pDim = .holds dim ∧
      r.pPower = .holds power ∧ r.pLabel = .holds label ∧ r.pTags = .holds tags

/-- The encoder inputs hold these values, register by register (rule R38); an input that the tag does not read may hold
anything, written or not. -/
def EncRegs.hold (r : EncRegs) (e : EncSample) : Prop :=
  r.version = .holds e.version ∧ r.addr = .holds e.addressable ∧ r.tagged = .holds e.tagged ∧
    r.target = .holds e.target ∧ r.site = .holds e.site ∧ r.ack = .holds e.acknowledge ∧
    r.atTime = .holds e.atTime ∧ r.holdPayload e.payload

/-- The encoder is idle and its inputs hold the values that an ENCODE samples (rules R38, R222). -/
def State.encodeReady (s : State) (e : EncSample) : Prop :=
  s.encUnit = .idle ∧ s.encIn.hold e

/-- What a host read gives where the register is specified under a condition: its value, or the fault of rule R36. -/
def State.readsIf (s : State) (specified : Prop) [Decidable specified] (v : ReadValue) :
    Host.Outcome State Fault Refusal :=
  if specified then .next { s with hostRead := some v } else .fault .unspecifiedRead

/-- No encoder input was written since reset. -/
def EncRegs.allUnwritten (r : EncRegs) : Prop :=
  r.version.written = false ∧ r.addr.written = false ∧ r.tagged.written = false ∧ r.target.written = false ∧
    r.site.written = false ∧ r.ack.written = false ∧ r.atTime.written = false ∧ r.ptag.written = false ∧
    r.emptyKind.written = false ∧ r.pVendor.written = false ∧ r.pProduct.written = false ∧ r.pVersion.written = false ∧
    r.pTime.written = false ∧ r.pUptime.written = false ∧ r.pDowntime.written = false ∧ r.pHue.written = false ∧
    r.pSat.written = false ∧ r.pBri.written = false ∧ r.pKelvin.written = false ∧ r.pDim.written = false ∧
    r.pPower.written = false ∧ r.pLabel.written = false ∧ r.pTags.written = false

/-- The table of rule R45: busy bits, statuses, every result unspecified, so that a read of it is a fault (rule R36), every
input never written, no transaction in flight. -/
def State.afterReset (s : State) : Prop :=
  s.decBusy = false ∧ s.encBusy = false ∧ s.decStatus = 0 ∧ s.encStatus = 0 ∧
    (∀ r, hostReadReg (.dec r) s = .fault .unspecifiedRead) ∧ hostReadReg .encLen s = .fault .unspecifiedRead ∧
    (∀ i, i < 88 → hostReadReg (.encOut i) s = .fault .unspecifiedRead) ∧
    (∀ i, s.decIn.read i = none) ∧ s.decLen.written = false ∧ s.encIn.allUnwritten ∧
    s.decUnit = .idle ∧ s.encUnit = .idle

/-- It is the decoder's move and its DECODE is at the payload stage, with this sampled input, header and window; the
window lies inside the input (rules R120, R122, R140). -/
def State.atDecodePayload (s : State) (input : List Byte) (h : Header) (win : Nat) : Prop :=
  s.mover = .dec ∧ (∃ cur, s.decUnit = .inFlight ⟨input, cur, .payload h win⟩) ∧ 36 ≤ input.length ∧
    win ≤ input.length - 36

/-- It is the encoder's move and its ENCODE has written its header bytes, with these sampled inputs and payload (rule
R160). -/
def State.atEncodePayload (s : State) (e : EncSample) (p : Payload) (out : Mem) : Prop :=
  s.mover = .enc ∧ s.encUnit = .inFlight ⟨e, .headerWritten out⟩ ∧ e.payload = some p

/-- Two states that differ at most in which unit moved last. -/
def State.sameBlock (s t : State) : Prop := { s with mover := .dec } = { t with mover := .dec }

/-! The invariant. -/

/-- What holds of every state that a run reaches. -/
structure State.Inv (s : State) : Prop where
  /-- `DEC_IN` is canonical and inside its space (rule R60). -/
  decIn_wf : s.decIn.wf = true
  decIn_below : s.decIn.below Config.maxInLen = true
  /-- `0 <= DEC_LEN <= MAX_IN_LEN` (rule R28). -/
  decLen_le : s.decLen.value ≤ Config.maxInLen
  /-- The reserved status is never written (rules R30, R40). -/
  decStatus_legal : s.decStatus ≠ statusReserved
  encStatus_legal : s.encStatus ≠ statusReserved
  /-- Where the status is OK, the specified decoder results are those of one message whose kind and variant agree (rules
  R24, R30, R32). -/
  dec_ok : s.decStatus = statusOk →
    ∃ (m : Message) (win : Nat), s.decRegs.hasHeader m.header win m.payload.tag ∧ s.decRegs.hasPayload m.payload ∧
      m.header.kind = m.payload.kind ∧ win ≤ 65499 ∧ kindLen m.header.kind ≤ win
  /-- `ENC_OUT` is canonical and inside its space (rule R60). -/
  encOut_wf : s.encOut.wf = true
  encOut_below : s.encOut.below 88 = true
  /-- Where the status is OK, the encoder outputs are one frame of 36, 48, 60 or 88 bytes (rules R40, R41, R69). -/
  enc_ok : s.encStatus = statusOk →
    ∃ b : List Byte, s.encOut = Mem.ofBytes b ∧ s.encLen = BitVec.ofNat 16 b.length ∧ b.length ∈ [36, 48, 60, 88]
  /-- A DECODE in flight is the one its sampled input starts, and the sampled input still equals the decoder's inputs
  where rule R231 holds them stable (rule R43). -/
  dec_flight : ∀ t, s.decUnit = .inFlight t →
    t = beginDecode t.input ∧ s.decLen = .holds t.input.length ∧
      ∀ i, i < min t.input.length 88 → s.decIn.read i = t.input[i]?
  /-- An ENCODE in flight is the one its sampled inputs start, and the sampled inputs still equal the encoder's inputs
  (rule R43). -/
  enc_flight : ∀ t, s.encUnit = .inFlight t → t = beginEncode t.sample ∧ s.encIn.hold t.sample

end Sys2Proof.Machine
end

