-- ==== Sys2Proof/Certificates/Slice0/Obligations.lean ====
section
/-! DEFINITION. The statements about the frame codec block, one per numbered rule or group of rules of the spec. They are
stated and not proved here. -/

open Sys2Proof Sys2Proof.Machine

/-! Reset. -/

/-- Rule R45: what reset leaves, the whole table. Each result register and output byte is unspecified, so that a host read
of it is a fault, and each input was never written. What the registers hold behind that is log 1 and not stated. -/
def Obligations.ResetLeavesIdleAndUnspecified : Prop := State.reset.afterReset

/-- From rules R220 and R221: reset at any time, also during a transaction, puts the block in the state of rule R45, and no
completion of an abandoned transaction follows. That the fields `mover`, `agenda` and `hostRead`, which are the model's and
not the spec's, are kept is the model's choice (log 19). -/
def Obligations.ResetAbandonsTransactions : Prop :=
  ∀ s : State, ∃ t, hostAct .reset s = .next t ∧ t.afterReset ∧ t.mover = s.mover ∧ t.agenda = s.agenda ∧
    t.hostRead = s.hostRead ∧ ∀ u, unitMove u t = .next t

/-! Decoding of instruction words. -/

/-- A few words, written out byte by byte. The kinds are those of rule R95, their two bytes those of rule R85, and the
request bits those of rule R101. That a KIND16 word is these two bytes, that a request word is one byte, and that `0b11`
gives the list DECODE, ENCODE, are the model's choice (log 13). -/
def Obligations.SpecWordsDecode : Prop :=
  decodeBytes .kind16 [0x20, 0x00] = .ok ([.deviceGetVersion], []) ∧
  decodeBytes .kind16 [0x21, 0x00] = .ok ([.deviceStateVersion], []) ∧
  decodeBytes .kind16 [0x6B, 0x00] = .ok ([.lightState], []) ∧
  decodeBytes .kind16 [0x00, 0x20] = .ok ([.empty 8192], []) ∧
  decodeBytes .kind16 [0x6B, 0x01] = .ok ([.empty 363], []) ∧
  decodeBytes .req [0x01] = .ok ([.decode], []) ∧
  decodeBytes .req [0x02] = .ok ([.encode], []) ∧
  decodeBytes .req [0x03] = .ok ([.decode, .encode], [])

/-- Rule R121: the routing function. -/
def Obligations.KindRouting : Prop :=
  decodeKind 32 = .deviceGetVersion ∧ decodeKind 33 = .deviceStateVersion ∧ decodeKind 34 = .deviceGetInfo ∧
  decodeKind 35 = .deviceStateInfo ∧ decodeKind 107 = .lightState ∧
  ∀ k : BitVec 16, k ∉ [32, 33, 34, 35, 107] → decodeKind k = .empty k

/-- Decoding the word of a well-formed instruction gives the instruction back, with the bytes behind it untouched (what a
word is: log 13). -/
def Obligations.DecodeOfEncode : Prop :=
  ∀ (i : Instr) (rest : List Byte), i.wellFormed = true →
    decodeBytes i.format (encodeInstr i ++ rest) = .ok ([i], rest)

/-- Every two bytes are the word (log 13) of exactly one payload format, which is well-formed: no kind is illegal (rule R100)
and no bit of it is dropped. -/
def Obligations.EveryKindWordIsOneFormat : Prop :=
  ∀ (lo hi : Byte) (rest : List Byte), ∃ i : Instr, decodeBytes .kind16 (lo :: hi :: rest) = .ok ([i], rest) ∧
    i.wellFormed = true ∧ i.format = .kind16 ∧ encodeInstr i = [lo, hi]

/-- A step takes the first entry of the agenda. An entry of a unit runs the instruction that the word the unit fetches
decodes to, with the entry consumed and the mover set; it reports an error raised before a format is reached (log 21); and
it does nothing on an idle unit. An empty agenda lets `drainUnit` move so (log 5). An entry of the host is the host's
action on the state with the entry consumed, and a request runs the instructions that its word decodes to, in order (the
one-byte word and the order: log 13). The agenda, the mover and the split of a transaction into a request and a completion
are the model's (log 3, 4, 6), and so are the delivery of reads (log 7), COPY and RESET as one action each (log 18, 19). -/
def Obligations.StepRunsDecodedInstruction : Prop :=
  (∀ (s : State) (u : CodecUnit) (rest : List Event) (i : Instr), s.agenda = .unit u :: rest → fetch u s = .run i →
    step s = exec i { s with agenda := rest, mover := u }) ∧
  (∀ (s : State) (i : Instr), s.agenda = [] → fetch (drainUnit s) s = .run i →
    step s = exec i { s with mover := drainUnit s }) ∧
  (∀ (s : State) (input : List Byte) (i : Instr) (rest : List Byte), s.decUnit = .inFlight (beginDecode input) →
    36 ≤ input.length → decodeBytes .kind16 (input.drop 32) = .ok ([i], rest) → fetch .dec s = .run i) ∧
  (∀ (s : State) (e : EncSample) (p : Payload), s.encUnit = .inFlight (beginEncode e) → e.payload = some p →
    illFormed e = false → decodeBytes .kind16 (leBytes 2 p.kind.toNat) = .ok ([p.variant], []) ∧
      fetch .enc s = .run p.variant) ∧
  (∀ (s : State) (b : Byte) (is : List Instr) (rest : List Event),
    s.agenda = .host (.request (BitVec.ofNat 2 b.toNat)) :: rest → decodeBytes .req [b] = .ok (is, []) →
    step s = runAll is { s with agenda := rest }) ∧
  (∀ (s : State) (u : CodecUnit) (rest : List Event), s.agenda = .unit u :: rest →
    (fetch u s = .raise → step s = .next (raiseError u { s with agenda := rest })) ∧
    (fetch u s = .idle → step s = .next { s with agenda := rest })) ∧
  (∀ s : State, s.agenda = [] →
    (fetch (drainUnit s) s = .raise → step s = .next (raiseError (drainUnit s) s)) ∧
    (fetch (drainUnit s) s = .idle → step s = .next s)) ∧
  (∀ (s : State) (a : HostAct) (rest : List Event), s.agenda = .host a :: rest →
    step s = hostAct a { s with agenda := rest } ∧
    (∀ i b, a = .writeDecIn i b → step s = hostWriteDecIn i b { s with agenda := rest }) ∧
    (∀ n, a = .writeDecLen n → step s = hostWriteDecLen n { s with agenda := rest }) ∧
    (∀ w, a = .writeEnc w → step s = hostWriteEnc w { s with agenda := rest }) ∧
    (∀ v, a = .request v → step s = hostRequest v { s with agenda := rest }) ∧
    (∀ r, a = .read r → step s = hostReadReg r { s with agenda := rest }) ∧
    (a = .copy → step s = hostCopy { s with agenda := rest }) ∧
    (a = .reset → step s = .next (resetState { s with agenda := rest })))

/-- Rule R101: each bit of the request vector starts its unit, both bits start both in one step, `0b00` requests nothing.
A request to a busy unit is refused (the model's choice, log 8); what a transaction in flight holds is log 3. Where a
request of `0b11` stops, so does the whole, with DECODE's stop if it has one and else ENCODE's; that a stop stops the whole,
and this order of the stops, are the model's choice (log 8). -/
def Obligations.RequestVectorStartsUnits : Prop :=
  (∀ s, hostRequest 0 s = .next s) ∧
  (∀ s b, s.decodeReady b → hostRequest 1 s = .next { s with decUnit := .inFlight (beginDecode b) }) ∧
  (∀ s e, s.encodeReady e → hostRequest 2 s = .next { s with encUnit := .inFlight (beginEncode e) }) ∧
  (∀ s b e, s.decodeReady b → s.encodeReady e → hostRequest 3 s =
    .next { s with decUnit := .inFlight (beginDecode b), encUnit := .inFlight (beginEncode e) }) ∧
  (∀ s, s.decBusy = true → hostRequest 1 s = .refused .hostActsWhileBusy ∧
    hostRequest 3 s = .refused .hostActsWhileBusy) ∧
  (∀ s, s.encBusy = true → hostRequest 2 s = .refused .hostActsWhileBusy) ∧
  (∀ s b, s.encBusy = true → s.decodeReady b → hostRequest 3 s = .refused .hostActsWhileBusy) ∧
  (∀ s f, exec .decode s = .fault f → hostRequest 1 s = .fault f ∧ hostRequest 3 s = .fault f) ∧
  (∀ s f, exec .encode s = .fault f → hostRequest 2 s = .fault f ∧
    ∀ b, s.decodeReady b → hostRequest 3 s = .fault f)

/-! DECODE. -/

/-- A DECODE request whose inputs are written completes: the decoder is busy with the sampled input, the header value and
window known, or the error raised at the first short read; nothing else changes. -/
def Obligations.DecodeRequestCompletes : Prop :=
  ∀ (s : State) (b : List Byte), s.decodeReady b → ∃ t : DecTxn,
    exec .decode s = .next { s with decUnit := .inFlight t } ∧ t.input = b ∧
    (36 ≤ b.length → t.cur = 36 ∧ t.stage = .payload (frameHeader b) (frameWindow b)) ∧
    (b.length < 36 → ∃ e : TruncatedInput, t.stage = .raised e ∧ t.cur = e.off ∧ e.off ≤ b.length ∧
      b.length < e.off + e.n)

/-- The header stage raises TruncatedInput exactly below 36 bytes, and otherwise reads every field: the spec marks its rule
R123 as "derived: from rules R110 to R119". -/
def Obligations.HeaderStageTruncation : Prop :=
  ∀ input : List Byte, ((∃ e, headerStage input = .error e) ↔ input.length < 36) ∧
    (36 ≤ input.length → headerStage input = .ok (frameHeader input))

/-- Rules R110, R111, R112: `size`, `version`, `addressable` and `tagged`: the bytes they are read from, when the read is
short, where the cursor stands behind them, and the registers they are committed to. -/
def Obligations.SizeAndProtocolFields : Prop :=
  (∀ input, input.length < 2 → readSize input = .error ⟨0, 2⟩) ∧
  (∀ b0 b1 rest, ∃ v, readSize (b0 :: b1 :: rest) = .ok v ∧ v.toNat = b0.toNat + 256 * b1.toNat) ∧
  (∀ input, input.length < 4 → readProtocol input = .error ⟨2, 2⟩) ∧
  (∀ b0 b1 b2 b3 rest, ∃ pb, readProtocol (b0 :: b1 :: b2 :: b3 :: rest) = .ok pb ∧
    pb.toNat = b2.toNat + 256 * b3.toNat) ∧
  (∀ pb : BitVec 16, (protocolVersion pb).toNat = pb.toNat % 4096 ∧
    protocolAddressable pb = decide (pb.toNat / 4096 % 2 = 1) ∧ protocolTagged pb = decide (pb.toNat / 8192 % 2 = 1)) ∧
  (∀ input h, headerStage input = .ok h → readSize input = .ok h.size ∧
    ∃ pb, readProtocol input = .ok pb ∧ h.version = protocolVersion pb ∧ h.addressable = protocolAddressable pb ∧
      h.tagged = protocolTagged pb) ∧
  (∀ h win p s, (commitDecode h win p s).decRegs.size = h.size ∧
    (commitDecode h win p s).decRegs.version = h.version ∧
    (commitDecode h win p s).decRegs.addr = h.addressable ∧
    (commitDecode h win p s).decRegs.tagged = h.tagged) ∧
  (∀ input, input.length < 2 → (beginDecode input).cur = 0) ∧
  (∀ input, 2 ≤ input.length → input.length < 4 → (beginDecode input).cur = 2) ∧
  (∀ input, 4 ≤ input.length → input.length < 8 → (beginDecode input).cur = 4)

/-- Rules R113, R114, R115: the transaction field is read and discarded, `target` and `site` are raw copies. -/
def Obligations.TransactionTargetSiteFields : Prop :=
  (∀ input, input.length < 8 → readTransaction input = .error ⟨4, 4⟩) ∧
  (∀ input, 8 ≤ input.length → readTransaction input = .ok ()) ∧
  (∀ input, input.length < 16 → readTarget input = .error ⟨8, 8⟩) ∧
  (∀ input, 16 ≤ input.length → ∃ v, readTarget input = .ok v ∧ ∀ i, i < 8 → v.toList[i]? = input[8 + i]?) ∧
  (∀ input, input.length < 22 → readSite input = .error ⟨16, 6⟩) ∧
  (∀ input, 22 ≤ input.length → ∃ v, readSite input = .ok v ∧ ∀ i, i < 6 → v.toList[i]? = input[16 + i]?) ∧
  (∀ input h, headerStage input = .ok h → readTransaction input = .ok () ∧ readTarget input = .ok h.target ∧
    readSite input = .ok h.site) ∧
  (∀ h win p s, (commitDecode h win p s).decRegs.target = h.target ∧
    (commitDecode h win p s).decRegs.site = h.site) ∧
  (∀ input, 8 ≤ input.length → input.length < 16 → (beginDecode input).cur = 8) ∧
  (∀ input, 16 ≤ input.length → input.length < 22 → (beginDecode input).cur = 16) ∧
  (∀ input, 22 ≤ input.length → input.length < 24 → (beginDecode input).cur = 22)

/-- Rules R116, R117, R118, R119: the ack-bitfield, `acknowledge`, `at_time`, `kind` and the reserved tail. -/
def Obligations.AckTimeKindFields : Prop :=
  (∀ input, input.length < 24 → readAck input = .error ⟨22, 2⟩) ∧
  (∀ input, 24 ≤ input.length → readAck input = .ok (BitVec.ofNat 16 (leNat ((input.drop 22).take 2)))) ∧
  (∀ ab : BitVec 16, ackAcknowledge ab = decide (ab.toNat % 2 = 1)) ∧
  (∀ input, input.length < 32 → readAtTime input = .error ⟨24, 8⟩) ∧
  (∀ input, 32 ≤ input.length → readAtTime input = .ok (BitVec.ofNat 64 (leNat ((input.drop 24).take 8)))) ∧
  (∀ input, input.length < 34 → readKind input = .error ⟨32, 2⟩) ∧
  (∀ input, 34 ≤ input.length → readKind input = .ok (BitVec.ofNat 16 (leNat ((input.drop 32).take 2)))) ∧
  (∀ input, input.length < 36 → readTail input = .error ⟨34, 2⟩) ∧
  (∀ input, 36 ≤ input.length → readTail input = .ok ()) ∧
  (∀ input h, headerStage input = .ok h →
    (∃ ab, readAck input = .ok ab ∧ h.acknowledge = ackAcknowledge ab) ∧ readAtTime input = .ok h.atTime ∧
    readKind input = .ok h.kind ∧ readTail input = .ok ()) ∧
  (∀ h win p s, (commitDecode h win p s).decRegs.ack = h.acknowledge ∧
    (commitDecode h win p s).decRegs.atTime = h.atTime ∧
    (commitDecode h win p s).decRegs.kind = h.kind) ∧
  (∀ input, 24 ≤ input.length → input.length < 32 → (beginDecode input).cur = 24) ∧
  (∀ input, 32 ≤ input.length → input.length < 34 → (beginDecode input).cur = 32) ∧
  (∀ input, 34 ≤ input.length → input.length < 36 → (beginDecode input).cur = 34) ∧
  (∀ input, 36 ≤ input.length → (beginDecode input).cur = 36)

/-- Rule R62: every multi-byte integer is little-endian, on reads of 2, 4 and 8 bytes and on writes. -/
def Obligations.LittleEndianReadsAndWrites : Prop :=
  (∀ (input : List Byte) (off n : Nat), off + n ≤ input.length → ∃ v, memRead input off n = .ok v ∧ v < 256 ^ n ∧
    ∀ k, k < n → input[off + k]? = some (BitVec.ofNat 8 (v / 256 ^ k))) ∧
  (∀ (off n v : Nat) (m : Mem), v < 256 ^ n → ∀ k, k < n →
    (memWrite off n v m).read (off + k) = some (BitVec.ofNat 8 (v / 256 ^ k)))

/-- An outcome does not depend on the discarded wire content, and the encoder writes it as zero (rule R88, which the spec
marks in part as "derived: from rule R164"). -/
def Obligations.DiscardedWireContent : Prop :=
  (∀ (s s' : State) (b d : List Byte), s.decodeReady b → s'.decodeReady d → sameKept b d → ∃ t t',
    transact .decode .dec s = .next t ∧ transact .decode .dec s' = .next t' ∧ t.decStatus = t'.decStatus ∧
      ∀ r, delivered (.dec r) t = delivered (.dec r) t') ∧
  (∀ (s : State) (e : EncSample), s.encodeReady e → ∃ t, transact .encode .enc s = .next t ∧
    (t.encStatus = statusOk → ∀ i, i < 36 → ∃ x, t.encOut.read i = some x ∧ x &&& keptBits i = x))

/-- Size against buffer length, all cases for `DEC_LEN >= 36`: the spec marks its rule R126 as "derived: from rule R120 and
rule R122". -/
def Obligations.SizeAgainstLength : Prop :=
  ∀ (s : State) (b : List Byte), s.decodeReady b → 36 ≤ b.length → ∃ t, transact .decode .dec s = .next t ∧
    ((frameHeader b).size.toNat = b.length →
      (t.decStatus = statusOk ↔ payloadLen (decodeKind (frameHeader b).kind) ≤ b.length - 36) ∧
      (t.decStatus = statusOk → t.decRegs.winLen = BitVec.ofNat 16 (b.length - 36))) ∧
    ((frameHeader b).size.toNat < b.length → 36 ≤ (frameHeader b).size.toNat →
      (t.decStatus = statusOk ↔ payloadLen (decodeKind (frameHeader b).kind) ≤ (frameHeader b).size.toNat - 36) ∧
      (t.decStatus = statusOk → t.decRegs.winLen = BitVec.ofNat 16 ((frameHeader b).size.toNat - 36))) ∧
    (b.length < (frameHeader b).size.toNat →
      (t.decStatus = statusOk ↔ payloadLen (decodeKind (frameHeader b).kind) ≤ b.length - 36) ∧
      (t.decStatus = statusOk → t.decRegs.winLen = BitVec.ofNat 16 (b.length - 36))) ∧
    ((frameHeader b).size.toNat < 36 →
      (t.decStatus = statusOk ↔ payloadLen (decodeKind (frameHeader b).kind) = 0) ∧
      (t.decStatus = statusOk → t.decRegs.winLen = 0))

/-- The decoder, from a request to its completion, gives the outcome of the codec function on the sampled bytes (rules R25,
R124, R125, R193) and changes nothing else of the block. (A register that the outcome leaves unspecified keeps its content:
log 23.) -/
def Obligations.DecodeRefinesCodec : Prop :=
  ∀ (s : State) (b : List Byte), s.decodeReady b → ∃ t, transact .decode .dec s = .next t ∧
    t.sameBlock (decodeOutcome b s)

/-- Rule R21 for the decoder, in the form of rule R127, which the spec marks as "derived: from 10_state.md rule R21 and
20_memory.md rule R65": the outcome is a function of the first 88 bytes and of `DEC_LEN`, whatever else the two states
hold. -/
def Obligations.DecodeIsDeterministic : Prop :=
  ∀ (s s' : State) (b d : List Byte), s.decodeReady b → s'.decodeReady d → b.length = d.length →
    b.take 88 = d.take 88 → ∃ t t', transact .decode .dec s = .next t ∧ transact .decode .dec s' = .next t' ∧
      t.decStatus = t'.decStatus ∧ ∀ r, delivered (.dec r) t = delivered (.dec r) t'

/-- The equivalent condition of rule R190, which the spec marks as "derived: from 40_header_decode.md rule R123": when a
DECODE reports TruncatedInput. -/
def Obligations.TruncatedInputCondition : Prop :=
  ∀ (s : State) (b : List Byte), s.decodeReady b → ∃ t, transact .decode .dec s = .next t ∧
    (t.decStatus = 2 ↔ b.length < 36 ∨
      (36 ≤ b.length ∧ payloadWindow (frameHeader b).size b.length < payloadLen (decodeKind (frameHeader b).kind)))

/-- Rule R193: what raising an error does at completion, for TruncatedInput raised by the header stage or by a payload rule,
and for ILLFORMED: the status and the busy bit; every result is then unspecified, so that a read of it is the fault of rule
R36 (what the registers hold behind that is not stated, log 23); nothing else changes; and the raise depends on lengths
alone, so that no field behind the short read is read. -/
def Obligations.RaiseEffect : Prop :=
  (∀ (s : State) (input : List Byte) (cur : Nat) (e : TruncatedInput),
    s.decUnit = .inFlight ⟨input, cur, .raised e⟩ →
    ∃ regs, unitMove .dec s = .next { s with decUnit := .idle, decStatus := 2, decRegs := regs }) ∧
  (∀ (s : State) (input : List Byte) (h : Header) (win : Nat), s.atDecodePayload input h win →
    win < payloadLen (decodeKind h.kind) →
    ∃ regs, unitMove .dec s = .next { s with decUnit := .idle, decStatus := 2, decRegs := regs }) ∧
  (∀ (s : State) (e : EncSample), s.encUnit = .inFlight ⟨e, .illFormed⟩ →
    ∃ out len, unitMove .enc s = .next { s with encUnit := .idle, encStatus := 2, encOut := out, encLen := len }) ∧
  (∀ (s : State) (r : DecReg), s.decUnit = .idle → s.decStatus = 2 →
    hostReadReg (.dec r) s = .fault .unspecifiedRead) ∧
  (∀ s : State, s.encUnit = .idle → s.encStatus = 2 → hostReadReg .encLen s = .fault .unspecifiedRead ∧
    ∀ i, i < 88 → hostReadReg (.encOut i) s = .fault .unspecifiedRead) ∧
  (∀ input input' : List Byte, input.length = input'.length → input.length < 36 →
    headerStage input = headerStage input') ∧
  (∀ (input input' : List Byte) (win : Nat), 36 + win ≤ input.length → 36 + win ≤ input'.length →
    (win < 12 → readStateVersion input win = readStateVersion input' win) ∧
    (win < 24 → readStateInfo input win = readStateInfo input' win) ∧
    (win < 52 → readLightState input win = readLightState input' win))

/-! The payload formats on the decoder. The payload registers of the other variants are unspecified after an OK decode,
which `DEC_PTAG` says (rules R34, R36); what they hold behind that is not stated (log 23). -/

/-- Rules R141, R143, R146: the formats without fields succeed on any window, and read no byte of it. -/
def Obligations.FieldlessFormatsDecode : Prop :=
  ∀ (s : State) (input : List Byte) (cur : Nat) (h : Header) (win : Nat), s.mover = .dec →
    s.decUnit = .inFlight ⟨input, cur, .payload h win⟩ →
    (h.kind = 32 → ∃ regs, exec .deviceGetVersion s =
      .next { s with decUnit := .idle, decStatus := 1, decRegs := regs } ∧ regs.hasHeader h win 1) ∧
    (h.kind = 34 → ∃ regs, exec .deviceGetInfo s =
      .next { s with decUnit := .idle, decStatus := 1, decRegs := regs } ∧ regs.hasHeader h win 3) ∧
    (h.kind ∉ [32, 33, 34, 35, 107] → ∃ regs, exec (.empty h.kind) s =
      .next { s with decUnit := .idle, decStatus := 1, decRegs := regs } ∧ regs.hasHeader h win 0)

/-- Rule R142: DeviceStateVersion on the decoder. -/
def Obligations.StateVersionDecodes : Prop :=
  ∀ (s : State) (input : List Byte) (h : Header) (win : Nat), s.atDecodePayload input h win → h.kind = 33 →
    (12 ≤ win → ∃ regs, exec .deviceStateVersion s =
      .next { s with decUnit := .idle, decStatus := 1, decRegs := regs } ∧ regs.hasHeader h win 2 ∧
      regs.pVendor = BitVec.ofNat 32 (leNat ((input.drop 36).take 4)) ∧
      regs.pProduct = BitVec.ofNat 32 (leNat ((input.drop 40).take 4)) ∧
      regs.pVersion = BitVec.ofNat 32 (leNat ((input.drop 44).take 4))) ∧
    (win < 12 → ∃ regs, exec .deviceStateVersion s =
      .next { s with decUnit := .idle, decStatus := 2, decRegs := regs })

/-- Rule R144: DeviceStateInfo on the decoder. -/
def Obligations.StateInfoDecodes : Prop :=
  ∀ (s : State) (input : List Byte) (h : Header) (win : Nat), s.atDecodePayload input h win → h.kind = 35 →
    (24 ≤ win → ∃ regs, exec .deviceStateInfo s =
      .next { s with decUnit := .idle, decStatus := 1, decRegs := regs } ∧ regs.hasHeader h win 4 ∧
      regs.pTime = BitVec.ofNat 64 (leNat ((input.drop 36).take 8)) ∧
      regs.pUptime = BitVec.ofNat 64 (leNat ((input.drop 44).take 8)) ∧
      regs.pDowntime = BitVec.ofNat 64 (leNat ((input.drop 52).take 8))) ∧
    (win < 24 → ∃ regs, exec .deviceStateInfo s =
      .next { s with decUnit := .idle, decStatus := 2, decRegs := regs })

/-- LightState on the decoder (rule R145). `DEC_P_DIM` is given by its 16 bits; their signed reading is `DimIsSigned`'s
(log 15). -/
def Obligations.LightStateDecodes : Prop :=
  ∀ (s : State) (input : List Byte) (h : Header) (win : Nat), s.atDecodePayload input h win → h.kind = 107 →
    (52 ≤ win → ∃ regs, exec .lightState s =
      .next { s with decUnit := .idle, decStatus := 1, decRegs := regs } ∧ regs.hasHeader h win 5 ∧
      regs.pHue = BitVec.ofNat 16 (leNat ((input.drop 36).take 2)) ∧
      regs.pSat = BitVec.ofNat 16 (leNat ((input.drop 38).take 2)) ∧
      regs.pBri = BitVec.ofNat 16 (leNat ((input.drop 40).take 2)) ∧
      regs.pKelvin = BitVec.ofNat 16 (leNat ((input.drop 42).take 2)) ∧
      regs.pDim = BitVec.ofNat 16 (leNat ((input.drop 44).take 2)) ∧
      regs.pPower = BitVec.ofNat 16 (leNat ((input.drop 46).take 2)) ∧
      regs.pLabel.toList = (input.drop 48).take 32 ∧
      regs.pTags = BitVec.ofNat 64 (leNat ((input.drop 80).take 8))) ∧
    (win < 52 → ∃ regs, exec .lightState s =
      .next { s with decUnit := .idle, decStatus := 2, decRegs := regs })

/-- `DEC_P_DIM` holds the 16 bits read at window offset 8 and is read as signed (rule R147); that signed means two's
complement is "from general knowledge, not in source" in the spec's words (log 15). -/
def Obligations.DimIsSigned : Prop :=
  (∀ (s : State) (input : List Byte) (h : Header) (win : Nat), s.atDecodePayload input h win → h.kind = 107 →
    52 ≤ win → ∃ t, exec .lightState s = .next t ∧
      t.decRegs.pDim = BitVec.ofNat 16 (leNat ((input.drop 44).take 2))) ∧
  (∀ (s : State) (u : BitVec 16), s.decUnit = .idle → s.decStatus = 1 → s.decRegs.ptag = 5 → s.decRegs.pDim = u →
    (u.toNat ≤ 0x7FFF → hostReadReg (.dec .pDim) s = .next { s with hostRead := some (.signed u.toNat) }) ∧
    (0x7FFF < u.toNat → hostReadReg (.dec .pDim) s =
      .next { s with hostRead := some (.signed ((u.toNat : Int) - 65536)) })) ∧
  signedDim 0x7FFF = 32767 ∧ signedDim 0x8000 = -32768 ∧ signedDim 0xFFFF = -1 ∧ signedDim 0 = 0

/-- Rule R148: the window bytes behind the variant's fields do not affect the outcome. -/
def Obligations.ExcessWindowBytesUnread : Prop :=
  ∀ (s : State) (input input' : List Byte) (h : Header) (win : Nat) (s' : State),
    s.atDecodePayload input h win → s'.atDecodePayload input' h win → payloadLen (decodeKind h.kind) ≤ win →
    input.take (36 + payloadLen (decodeKind h.kind)) = input'.take (36 + payloadLen (decodeKind h.kind)) →
    ∃ t t', exec (decodeKind h.kind) s = .next t ∧ exec (decodeKind h.kind) s' = .next t' ∧
      t.decStatus = statusOk ∧ t'.decStatus = statusOk ∧ ∀ r, delivered (.dec r) t = delivered (.dec r) t'

/-! ENCODE. -/

/-- An ENCODE request whose needed inputs are written completes: the encoder is busy with the sampled inputs, each the value
of the `ENC_*` register that rule R38 names for it, and either the request is ill-formed or the private output holds the 36
header bytes; nothing else changes. Conversely it completes in no other state: that a request to a busy encoder is refused
is the model's choice (log 8), and that a request without a needed input is a fault, an ill-formed one too, is read from
rule R222 by inference (log 10). `EncRegs.hold`, in `State.encodeReady`, names the
registers one by one, with the operands of rules R164 to R168 and R171 to R176. -/
def Obligations.EncodeRequestCompletes : Prop :=
  (∀ (s : State) (e : EncSample), s.encodeReady e → ∃ t : EncTxn,
    exec .encode s = .next { s with encUnit := .inFlight t } ∧ t.sample = e ∧
    (illFormed e = true → t.stage = .illFormed) ∧
    (illFormed e = false → ∃ p out, e.payload = some p ∧ t.stage = .headerWritten out ∧
      ∀ i, out.read i = (headerBytes e p)[i]?)) ∧
  (∀ s t : State, exec .encode s = .next t → ∃ e, s.encodeReady e)

/-- Rules R163 to R169: the header writes, field by field, and no other byte. -/
def Obligations.HeaderFieldWrites : Prop :=
  ∀ (e : EncSample) (p : Payload), e.payload = some p → illFormed e = false →
    (headerWrites e p).readRange 0 2 = some (leBytes 2 (36 + p.len)) ∧
    (headerWrites e p).readRange 2 2 = some (leBytes 2
      (e.version.toNat % 4096 + (if e.addressable then 4096 else 0) + (if e.tagged then 8192 else 0))) ∧
    (headerWrites e p).readRange 4 4 = some [0, 0, 0, 0] ∧
    (headerWrites e p).readRange 8 8 = some e.target.toList ∧
    (headerWrites e p).readRange 16 6 = some e.site.toList ∧
    (headerWrites e p).readRange 22 2 = some (if e.acknowledge then [1, 0] else [0, 0]) ∧
    (headerWrites e p).readRange 24 8 = some (leBytes 8 e.atTime.toNat) ∧
    (headerWrites e p).readRange 32 2 = some (leBytes 2 p.kind.toNat) ∧
    (headerWrites e p).readRange 34 2 = some [0, 0] ∧
    ∀ i, 36 ≤ i → (headerWrites e p).read i = none

/-- Rule R90: the two bitfields are put together from their fields, the reserved bits zero; and taking them apart by rule
R89 gives the fields back. -/
def Obligations.ProtocolBitfieldRoundTrip : Prop :=
  ∀ (version : BitVec 16) (addressable tagged : Bool),
    (packProtocol version addressable tagged).toNat =
      version.toNat % 4096 + (if addressable then 0x1000 else 0) + (if tagged then 0x2000 else 0) ∧
    (protocolVersion (packProtocol version addressable tagged)).toNat = version.toNat % 4096 ∧
    protocolAddressable (packProtocol version addressable tagged) = addressable ∧
    protocolTagged (packProtocol version addressable tagged) = tagged ∧
    ackAcknowledge (packAck addressable) = addressable ∧ (packAck addressable).toNat = if addressable then 1 else 0

/-- Rule R180: when an ENCODE is ill-formed, in the registers' own terms; it then writes no valid output. -/
def Obligations.IllFormedCondition : Prop :=
  ∀ (s : State) (e : EncSample) (v : BitVec 16) (g : BitVec 3), s.encodeReady e → s.encIn.version = .holds v →
    s.encIn.ptag = .holds g → ∃ t, transact .encode .enc s = .next t ∧
      (t.encStatus = 2 ↔ 4096 ≤ v.toNat ∨ g = 6 ∨ g = 7 ∨
        (g = 0 ∧ ∃ k, s.encIn.emptyKind = .holds k ∧ k ∈ [32, 33, 34, 35, 107])) ∧
      (t.encStatus = 2 → hostReadReg .encLen t = .fault .unspecifiedRead ∧
        ∀ i, i < 88 → hostReadReg (.encOut i) t = .fault .unspecifiedRead)

/-- Rules R171, R172, R174: the formats without fields write no payload byte and read no payload input; their kinds; an
Empty with a kind of the table is ill-formed. -/
def Obligations.FieldlessFormatsEncode : Prop :=
  (∀ (s : State) (e : EncSample) (out : Mem), s.atEncodePayload e .deviceGetVersion out → exec .deviceGetVersion s =
    .next { s with encUnit := .idle, encStatus := 1, encOut := out, encLen := 36 }) ∧
  (∀ (s : State) (e : EncSample) (out : Mem), s.atEncodePayload e .deviceGetInfo out → exec .deviceGetInfo s =
    .next { s with encUnit := .idle, encStatus := 1, encOut := out, encLen := 36 }) ∧
  (∀ (s : State) (e : EncSample) (k : BitVec 16) (out : Mem), s.atEncodePayload e (.empty k) out →
    exec (.empty k) s = .next { s with encUnit := .idle, encStatus := 1, encOut := out, encLen := 36 }) ∧
  (∀ (e : EncSample) (k : BitVec 16), e.payload = some (.empty k) → k ∈ [32, 33, 34, 35, 107] →
    (beginEncode e).stage = .illFormed) ∧
  (∀ r : EncRegs, samplePayload r 1 = some (some .deviceGetVersion) ∧ samplePayload r 3 = some (some .deviceGetInfo)) ∧
  Payload.deviceGetVersion.kind = 32 ∧ Payload.deviceGetInfo.kind = 34 ∧ ∀ k, (Payload.empty k).kind = k

/-- Rule R173: DeviceStateVersion on the encoder: bytes 36 to 47 are written, every other byte is the header's. -/
def Obligations.StateVersionEncodes : Prop :=
  ∀ (s : State) (e : EncSample) (vendor product version : BitVec 32) (out : Mem),
    s.atEncodePayload e (.deviceStateVersion vendor product version) out →
    (Payload.deviceStateVersion vendor product version).kind = 33 ∧ ∃ frame,
      exec .deviceStateVersion s =
        .next { s with encUnit := .idle, encStatus := 1, encOut := frame, encLen := 48 } ∧
      frame.readRange 36 4 = some (leBytes 4 vendor.toNat) ∧ frame.readRange 40 4 = some (leBytes 4 product.toNat) ∧
      frame.readRange 44 4 = some (leBytes 4 version.toNat) ∧
      ∀ a, ¬(36 ≤ a ∧ a < 48) → frame.read a = out.read a

/-- Rule R175: DeviceStateInfo on the encoder. -/
def Obligations.StateInfoEncodes : Prop :=
  ∀ (s : State) (e : EncSample) (time uptime downtime : BitVec 64) (out : Mem),
    s.atEncodePayload e (.deviceStateInfo time uptime downtime) out →
    (Payload.deviceStateInfo time uptime downtime).kind = 35 ∧ ∃ frame,
      exec .deviceStateInfo s =
        .next { s with encUnit := .idle, encStatus := 1, encOut := frame, encLen := 60 } ∧
      frame.readRange 36 8 = some (leBytes 8 time.toNat) ∧ frame.readRange 44 8 = some (leBytes 8 uptime.toNat) ∧
      frame.readRange 52 8 = some (leBytes 8 downtime.toNat) ∧
      ∀ a, ¬(36 ≤ a ∧ a < 60) → frame.read a = out.read a

/-- LightState on the encoder (rule R176). `dim` is written as its two's complement value modulo 65536 (log 15). -/
def Obligations.LightStateEncodes : Prop :=
  ∀ (s : State) (e : EncSample) (color : Hsbk) (dim power : BitVec 16) (label : Bytes 32) (tags : BitVec 64) (out : Mem),
    s.atEncodePayload e (.lightState color dim power label tags) out →
    (Payload.lightState color dim power label tags).kind = 107 ∧ ∃ frame,
      exec .lightState s =
        .next { s with encUnit := .idle, encStatus := 1, encOut := frame, encLen := 88 } ∧
      frame.readRange 36 2 = some (leBytes 2 color.hue.toNat) ∧
      frame.readRange 38 2 = some (leBytes 2 color.saturation.toNat) ∧
      frame.readRange 40 2 = some (leBytes 2 color.brightness.toNat) ∧
      frame.readRange 42 2 = some (leBytes 2 color.kelvin.toNat) ∧
      frame.readRange 44 2 = some (leBytes 2 (dim.toInt % 65536).toNat) ∧
      frame.readRange 46 2 = some (leBytes 2 power.toNat) ∧
      frame.readRange 48 32 = some label.toList ∧
      frame.readRange 80 8 = some (leBytes 8 tags.toNat) ∧
      ∀ a, ¬(36 ≤ a ∧ a < 88) → frame.read a = out.read a

/-- The encoder, from a request to its completion, gives the outcome of the codec function on the sampled inputs (rules R25,
R160, R184) and changes nothing else of the block. (After ILLFORMED the unspecified outputs keep their content: log 23.) -/
def Obligations.EncodeRefinesCodec : Prop :=
  ∀ (s : State) (e : EncSample), s.encodeReady e → ∃ t, transact .encode .enc s = .next t ∧
    t.sameBlock (encodeOutcome e s)

/-- The length of an OK ENCODE depends on `ENC_PTAG` alone: the spec marks its rule R183 as "derived: from rule R162". -/
def Obligations.FrameLengthByTag : Prop :=
  ∀ (s : State) (e : EncSample) (g : BitVec 3), s.encodeReady e → s.encIn.ptag = .holds g →
    ∃ t, transact .encode .enc s = .next t ∧ (t.encStatus = statusOk →
      t.encLen = if g = 2 then 48 else if g = 4 then 60 else if g = 5 then 88 else 36)

/-- The codec's round trip: a valid message is encoded, and decoding the frame gives it back. The spec marks its rule R181
as "derived: from rules R160 to R176" and R110 to R125. -/
def Obligations.CodecRoundTrip : Prop :=
  ∀ m : Message, m.valid = true → ∃ b, encodeFrame m.sample = some b ∧
    decodeFrame b = some (m, payloadLen m.payload.variant)

/-- The round trip on the machine: ENCODE, COPY, DECODE of a valid message end with the message in the decoder's registers and
`DEC_WIN_LEN = LEN(V)`. -/
def Obligations.LoopbackRoundTrip : Prop :=
  ∀ (s : State) (m : Message), m.valid = true → s.encodeReady m.sample → s.decUnit = .idle → ∃ t1 t2 t3,
    transact .encode .enc s = .next t1 ∧ t1.encStatus = statusOk ∧ hostCopy t1 = .next t2 ∧
    transact .decode .dec t2 = .next t3 ∧ t3.decStatus = statusOk ∧
    t3.decRegs.hasHeader m.header (payloadLen m.payload.variant) m.payload.tag ∧ t3.decRegs.hasPayload m.payload

/-- Encoding a decoded message gives the frame back but for the discarded bits, the size and the bytes behind the variant's
fields: the spec marks its rule R182 as "derived: from rule R88", R162 and R148. -/
def Obligations.ReencodeOfDecoded : Prop :=
  ∀ (b : List Byte) (m : Message) (win : Nat), decodeFrame b = some (m, win) → ∃ d, encodeFrame m.sample = some d ∧
    d.length = 36 + payloadLen m.payload.variant ∧ d.take 2 = leBytes 2 (36 + payloadLen m.payload.variant) ∧
    ∀ i, 2 ≤ i → i < d.length → d[i]? = b[i]?.map (· &&& keptBits i)

/-! Frames. -/

/-- What the two operations leave unchanged: everything but their own unit's transaction in flight, every byte of both
buffers included. -/
def Obligations.RequestFrame : Prop :=
  (∀ s t : State, exec .decode s = .next t → t = { s with decUnit := t.decUnit } ∧
    (∀ a, t.decIn.read a = s.decIn.read a) ∧ ∀ a, t.encOut.read a = s.encOut.read a) ∧
  (∀ s t : State, exec .encode s = .next t → t = { s with encUnit := t.encUnit } ∧
    (∀ a, t.decIn.read a = s.decIn.read a) ∧ ∀ a, t.encOut.read a = s.encOut.read a)

/-- What the six payload formats leave unchanged on the decoder: everything but the decoder's status, results and
transaction; they store to no buffer. -/
def Obligations.FormatFrameOnDecoder : Prop :=
  ∀ (i : Instr) (s t : State), i.format = .kind16 → s.mover = .dec → exec i s = .next t →
    t = { s with decUnit := .idle, decStatus := t.decStatus, decRegs := t.decRegs } ∧
    (∀ a, t.decIn.read a = s.decIn.read a) ∧ ∀ a, t.encOut.read a = s.encOut.read a

/-- What the six payload formats leave unchanged on the encoder: everything but the encoder's status, outputs and
transaction. The bytes they store are `36 .. 36 + LEN(V) - 1` of the frame; every other byte of `ENC_OUT` is as the header
writes left it in the private output, and no byte of `DEC_IN` changes. -/
def Obligations.FormatFrameOnEncoder : Prop :=
  ∀ (i : Instr) (s t : State), i.format = .kind16 → s.mover = .enc → exec i s = .next t →
    t = { s with encUnit := .idle, encStatus := statusOk, encOut := t.encOut, encLen := t.encLen } ∧
    (∀ a, t.decIn.read a = s.decIn.read a) ∧
    ∃ e out, s.encUnit = .inFlight ⟨e, .headerWritten out⟩ ∧
      ∀ a, ¬(36 ≤ a ∧ a < 36 + payloadLen i) → t.encOut.read a = out.read a

/-- Rules R27, R38, R66: no instruction writes an input, of either unit; nor does one touch the host's side. -/
def Obligations.UnitsNeverWriteInputs : Prop :=
  ∀ (i : Instr) (s t : State), exec i s = .next t → t.decIn = s.decIn ∧ t.decLen = s.decLen ∧ t.encIn = s.encIn ∧
    t.agenda = s.agenda ∧ t.hostRead = s.hostRead

/-- From rule R37: a unit's status and results keep their values until that unit's next completion or reset: no other host
action and no move of the other unit changes them. -/
def Obligations.ResultsKeepTheirValues : Prop :=
  (∀ (a : HostAct) (s t : State), a ≠ .reset → hostAct a s = .next t → t.decStatus = s.decStatus ∧
    t.decRegs = s.decRegs ∧ t.encStatus = s.encStatus ∧ t.encOut = s.encOut ∧ t.encLen = s.encLen) ∧
  (∀ s t : State, unitMove .enc s = .next t → t.decStatus = s.decStatus ∧ t.decRegs = s.decRegs) ∧
  (∀ s t : State, unitMove .dec s = .next t → t.encStatus = s.encStatus ∧ t.encOut = s.encOut ∧ t.encLen = s.encLen)

/-! The machine as a whole. -/

/-- The invariant holds after reset. -/
def Obligations.ResetMeetsInvariant : Prop := State.reset.Inv

/-- Every step keeps the invariant: buffers canonical and in bounds, statuses legal, results present exactly when the
status is OK with kind and variant agreeing, sampled inputs equal to the inputs they were sampled from. -/
def Obligations.StepKeepsInvariant : Prop :=
  ∀ s t : State, s.Inv → step s = .next t → t.Inv

/-- Rule R205, which the spec marks as "derived: from 10_state.md rule R21 and 20_memory.md rule R61": the order in which
the two units start, complete, or one starts and the other completes, does not matter. Whichever order answers a next
state, the other order does, with the same block; the mover, which two completions set differently, is the model's own
(log 6). -/
def Obligations.UnitsCommute : Prop :=
  (∀ s u : State, (∃ t, exec .decode s = .next t ∧ exec .encode t = .next u) ↔
    ∃ t, exec .encode s = .next t ∧ exec .decode t = .next u) ∧
  (∀ s u : State, (∃ t, exec .decode s = .next t ∧ unitMove .enc t = .next u) ↔
    ∃ t, unitMove .enc s = .next t ∧ exec .decode t = .next u) ∧
  (∀ s u : State, (∃ t, exec .encode s = .next t ∧ unitMove .dec t = .next u) ↔
    ∃ t, unitMove .dec s = .next t ∧ exec .encode t = .next u) ∧
  (∀ s t u : State, unitMove .dec s = .next t → unitMove .enc t = .next u →
    ∃ t' u', unitMove .enc s = .next t' ∧ unitMove .dec t' = .next u' ∧ u.sameBlock u') ∧
  (∀ s t u : State, unitMove .enc s = .next t → unitMove .dec t = .next u →
    ∃ t' u', unitMove .dec s = .next t' ∧ unitMove .enc t' = .next u' ∧ u.sameBlock u')

/-- Rules R20, R61, R205: what the decoder does depends on nothing of the encoder: two states that agree on the decoder
give, on a request and on a move, results that agree on the decoder. -/
def Obligations.DecoderIgnoresEncoder : Prop :=
  ∀ s s' : State, s.decIn = s'.decIn → s.decLen = s'.decLen → s.decUnit = s'.decUnit → s.decStatus = s'.decStatus →
    s.decRegs = s'.decRegs →
    (∀ t, exec .decode s = .next t → ∃ t', exec .decode s' = .next t' ∧ t.decUnit = t'.decUnit) ∧
    (∀ t, unitMove .dec s = .next t → ∃ t', unitMove .dec s' = .next t' ∧ t.decUnit = t'.decUnit ∧
      t.decStatus = t'.decStatus ∧ t.decRegs = t'.decRegs)

/-- Rule R196: every DECODE and every ENCODE whose inputs are written completes, with one of its two statuses, and leaves
its unit idle. -/
def Obligations.EveryTransactionCompletes : Prop :=
  (∀ (s : State) (b : List Byte), s.decodeReady b → ∃ t, transact .decode .dec s = .next t ∧ t.decBusy = false ∧
    (t.decStatus = 1 ∨ t.decStatus = 2)) ∧
  (∀ (s : State) (e : EncSample), s.encodeReady e → ∃ t, transact .encode .enc s = .next t ∧ t.encBusy = false ∧
    (t.encStatus = 1 ∨ t.encStatus = 2))

/-- Rule R235's fairness in the model: with nothing left on the agenda, two steps leave both units idle. It rests on the
model's draining of an empty agenda (log 5). -/
def Obligations.EmptyAgendaDrains : Prop :=
  ∀ s : State, s.Inv → s.agenda = [] → ∃ t u, step s = .next t ∧ step t = .next u ∧ u.decBusy = false ∧
    u.encBusy = false

/-- A payload format runs only on a unit that holds a transaction at the payload stage of that format; elsewhere it is
refused by name. The model's choice (log 14). -/
def Obligations.FormatsRunOnlyWhereRouted : Prop :=
  ∀ (i : Instr) (s : State), i.format = .kind16 →
    (s.mover = .dec → (∀ input cur h win, s.decUnit = .inFlight ⟨input, cur, .payload h win⟩ → decodeKind h.kind ≠ i) →
      exec i s = .refused .notRouted) ∧
    (s.mover = .enc → (∀ e out p, s.encUnit = .inFlight ⟨e, .headerWritten out⟩ → e.payload = some p → p.variant ≠ i) →
      exec i s = .refused .notRouted)

/-! The host. -/

/-- Rule R36: a host read of a register that is unspecified is a fault: decoder results while the status is not OK, payload
registers of inactive variants, encoder outputs while the status is not OK, and output bytes from `ENC_LEN` on. -/
def Obligations.UnspecifiedReadsFault : Prop :=
  ∀ s : State,
    (s.decUnit = .idle → s.decStatus ≠ statusOk → ∀ r, hostReadReg (.dec r) s = .fault .unspecifiedRead) ∧
    (s.decUnit = .idle → s.decStatus = statusOk → ∀ r tag, r.payloadTag = some tag → tag ≠ s.decRegs.ptag →
      hostReadReg (.dec r) s = .fault .unspecifiedRead) ∧
    (s.encUnit = .idle → s.encStatus ≠ statusOk → hostReadReg .encLen s = .fault .unspecifiedRead ∧
      ∀ i, i < 88 → hostReadReg (.encOut i) s = .fault .unspecifiedRead) ∧
    (s.encUnit = .idle → s.encStatus = statusOk → ∀ i, s.encLen.toNat ≤ i → i < 88 →
      hostReadReg (.encOut i) s = .fault .unspecifiedRead)

/-- The reads that succeed (rules R29 to R34, R39 to R41). At any time a busy bit delivers whether its unit has a
transaction in flight. An idle unit's status delivers the status. While the status is OK every header register, and every
payload register of the active variant, delivers its value, and so does every output byte below `ENC_LEN`. That a value is
delivered in `hostRead`, and in which form, is the model's choice (log 7). -/
def Obligations.SpecifiedReadsDeliver : Prop :=
  (∀ s : State, ∃ b, hostReadReg .decBusy s = .next { s with hostRead := some (.flag b) } ∧
    (b = true ↔ ∃ t, s.decUnit = .inFlight t)) ∧
  (∀ s : State, ∃ b, hostReadReg .encBusy s = .next { s with hostRead := some (.flag b) } ∧
    (b = true ↔ ∃ t, s.encUnit = .inFlight t)) ∧
  ∀ s : State, s.Inv →
    (s.decUnit = .idle →
      hostReadReg .decStatus s = .next { s with hostRead := some (.unsigned s.decStatus.toNat) }) ∧
    (s.encUnit = .idle →
      hostReadReg .encStatus s = .next { s with hostRead := some (.unsigned s.encStatus.toNat) }) ∧
    (s.decUnit = .idle → s.decStatus = statusOk → ∀ r,
      (r.payloadTag = none ∨ r.payloadTag = some s.decRegs.ptag) →
      hostReadReg (.dec r) s = .next { s with hostRead := some (s.decRegs.readValue r) }) ∧
    (s.encUnit = .idle → s.encStatus = statusOk →
      hostReadReg .encLen s = .next { s with hostRead := some (.unsigned s.encLen.toNat) } ∧
      ∀ i, i < s.encLen.toNat → ∃ b : Byte, s.encOut.read i = some b ∧
        hostReadReg (.encOut i) s = .next { s with hostRead := some (.unsigned b.toNat) })

/-- Each result register delivers its own content where it is specified, and faults elsewhere (rules R30 to R34, R36, R40,
R41): a header register while the status is OK, a payload register while the tag names its variant too, an output byte
below `ENC_LEN`. A flag is delivered as its bit, an integer as its unsigned value, a byte array as its bytes, element 0
first, and `DEC_P_DIM` as two's complement (log 15). The delivery in `hostRead` and its form are the model's choice (log
7), and so is a byte array read whole (log 17). -/
def Obligations.EachRegisterReadsItself : Prop :=
  (∀ s : State, s.decUnit = .idle →
    hostReadReg (.dec .size) s = s.readsIf (s.decStatus = 1) (.unsigned s.decRegs.size.toNat) ∧
    hostReadReg (.dec .version) s = s.readsIf (s.decStatus = 1) (.unsigned s.decRegs.version.toNat) ∧
    hostReadReg (.dec .addr) s = s.readsIf (s.decStatus = 1) (.flag s.decRegs.addr) ∧
    hostReadReg (.dec .tagged) s = s.readsIf (s.decStatus = 1) (.flag s.decRegs.tagged) ∧
    hostReadReg (.dec .target) s = s.readsIf (s.decStatus = 1) (.bytes s.decRegs.target.toList) ∧
    hostReadReg (.dec .site) s = s.readsIf (s.decStatus = 1) (.bytes s.decRegs.site.toList) ∧
    hostReadReg (.dec .ack) s = s.readsIf (s.decStatus = 1) (.flag s.decRegs.ack) ∧
    hostReadReg (.dec .atTime) s = s.readsIf (s.decStatus = 1) (.unsigned s.decRegs.atTime.toNat) ∧
    hostReadReg (.dec .kind) s = s.readsIf (s.decStatus = 1) (.unsigned s.decRegs.kind.toNat) ∧
    hostReadReg (.dec .winLen) s = s.readsIf (s.decStatus = 1) (.unsigned s.decRegs.winLen.toNat) ∧
    hostReadReg (.dec .ptag) s = s.readsIf (s.decStatus = 1) (.unsigned s.decRegs.ptag.toNat) ∧
    hostReadReg (.dec .pVendor) s =
      s.readsIf (s.decStatus = 1 ∧ s.decRegs.ptag = 2) (.unsigned s.decRegs.pVendor.toNat) ∧
    hostReadReg (.dec .pProduct) s =
      s.readsIf (s.decStatus = 1 ∧ s.decRegs.ptag = 2) (.unsigned s.decRegs.pProduct.toNat) ∧
    hostReadReg (.dec .pVersion) s =
      s.readsIf (s.decStatus = 1 ∧ s.decRegs.ptag = 2) (.unsigned s.decRegs.pVersion.toNat) ∧
    hostReadReg (.dec .pTime) s = s.readsIf (s.decStatus = 1 ∧ s.decRegs.ptag = 4) (.unsigned s.decRegs.pTime.toNat) ∧
    hostReadReg (.dec .pUptime) s =
      s.readsIf (s.decStatus = 1 ∧ s.decRegs.ptag = 4) (.unsigned s.decRegs.pUptime.toNat) ∧
    hostReadReg (.dec .pDowntime) s =
      s.readsIf (s.decStatus = 1 ∧ s.decRegs.ptag = 4) (.unsigned s.decRegs.pDowntime.toNat) ∧
    hostReadReg (.dec .pHue) s = s.readsIf (s.decStatus = 1 ∧ s.decRegs.ptag = 5) (.unsigned s.decRegs.pHue.toNat) ∧
    hostReadReg (.dec .pSat) s = s.readsIf (s.decStatus = 1 ∧ s.decRegs.ptag = 5) (.unsigned s.decRegs.pSat.toNat) ∧
    hostReadReg (.dec .pBri) s = s.readsIf (s.decStatus = 1 ∧ s.decRegs.ptag = 5) (.unsigned s.decRegs.pBri.toNat) ∧
    hostReadReg (.dec .pKelvin) s =
      s.readsIf (s.decStatus = 1 ∧ s.decRegs.ptag = 5) (.unsigned s.decRegs.pKelvin.toNat) ∧
    hostReadReg (.dec .pDim) s =
      s.readsIf (s.decStatus = 1 ∧ s.decRegs.ptag = 5)
        (.signed (if s.decRegs.pDim.toNat ≤ 0x7FFF then s.decRegs.pDim.toNat else (s.decRegs.pDim.toNat : Int) - 65536)) ∧
    hostReadReg (.dec .pPower) s =
      s.readsIf (s.decStatus = 1 ∧ s.decRegs.ptag = 5) (.unsigned s.decRegs.pPower.toNat) ∧
    hostReadReg (.dec .pLabel) s = s.readsIf (s.decStatus = 1 ∧ s.decRegs.ptag = 5) (.bytes s.decRegs.pLabel.toList) ∧
    hostReadReg (.dec .pTags) s = s.readsIf (s.decStatus = 1 ∧ s.decRegs.ptag = 5) (.unsigned s.decRegs.pTags.toNat)) ∧
  (∀ s : State, s.encUnit = .idle →
    hostReadReg .encLen s = s.readsIf (s.encStatus = 1) (.unsigned s.encLen.toNat) ∧
    (∀ i b, i < 88 → s.encOut.read i = some b →
      hostReadReg (.encOut i) s = s.readsIf (s.encStatus = 1 ∧ i < s.encLen.toNat) (.unsigned b.toNat)) ∧
    ∀ i, i < 88 → s.encOut.read i = none → hostReadReg (.encOut i) s = .fault .unspecifiedRead)

/-- Rule R230 forbids the host a request to a busy unit and a read of its status or results; that the model refuses them by
name is its choice (log 8). -/
def Obligations.BusyHazard : Prop :=
  (∀ s : State, s.decBusy = true → exec .decode s = .refused .hostActsWhileBusy ∧
    hostReadReg .decStatus s = .refused .hostActsWhileBusy ∧
    ∀ r, hostReadReg (.dec r) s = .refused .hostActsWhileBusy) ∧
  (∀ s : State, s.encBusy = true → exec .encode s = .refused .hostActsWhileBusy ∧
    hostReadReg .encStatus s = .refused .hostActsWhileBusy ∧
    hostReadReg .encLen s = .refused .hostActsWhileBusy ∧
    ∀ i, hostReadReg (.encOut i) s = .refused .hostActsWhileBusy)

/-- Each encoder input is written by itself (rule R38): with an idle encoder the register named holds the value written, and
every other register and everything else is as before. A byte array is written whole (log 17). -/
def Obligations.EncoderInputWrites : Prop :=
  ∀ s : State, s.encUnit = .idle →
    (∀ v, hostWriteEnc (.version v) s = .next { s with encIn := { s.encIn with version := .holds v } }) ∧
    (∀ v, hostWriteEnc (.addr v) s = .next { s with encIn := { s.encIn with addr := .holds v } }) ∧
    (∀ v, hostWriteEnc (.tagged v) s = .next { s with encIn := { s.encIn with tagged := .holds v } }) ∧
    (∀ v, hostWriteEnc (.target v) s = .next { s with encIn := { s.encIn with target := .holds v } }) ∧
    (∀ v, hostWriteEnc (.site v) s = .next { s with encIn := { s.encIn with site := .holds v } }) ∧
    (∀ v, hostWriteEnc (.ack v) s = .next { s with encIn := { s.encIn with ack := .holds v } }) ∧
    (∀ v, hostWriteEnc (.atTime v) s = .next { s with encIn := { s.encIn with atTime := .holds v } }) ∧
    (∀ v, hostWriteEnc (.ptag v) s = .next { s with encIn := { s.encIn with ptag := .holds v } }) ∧
    (∀ v, hostWriteEnc (.emptyKind v) s = .next { s with encIn := { s.encIn with emptyKind := .holds v } }) ∧
    (∀ v, hostWriteEnc (.pVendor v) s = .next { s with encIn := { s.encIn with pVendor := .holds v } }) ∧
    (∀ v, hostWriteEnc (.pProduct v) s = .next { s with encIn := { s.encIn with pProduct := .holds v } }) ∧
    (∀ v, hostWriteEnc (.pVersion v) s = .next { s with encIn := { s.encIn with pVersion := .holds v } }) ∧
    (∀ v, hostWriteEnc (.pTime v) s = .next { s with encIn := { s.encIn with pTime := .holds v } }) ∧
    (∀ v, hostWriteEnc (.pUptime v) s = .next { s with encIn := { s.encIn with pUptime := .holds v } }) ∧
    (∀ v, hostWriteEnc (.pDowntime v) s = .next { s with encIn := { s.encIn with pDowntime := .holds v } }) ∧
    (∀ v, hostWriteEnc (.pHue v) s = .next { s with encIn := { s.encIn with pHue := .holds v } }) ∧
    (∀ v, hostWriteEnc (.pSat v) s = .next { s with encIn := { s.encIn with pSat := .holds v } }) ∧
    (∀ v, hostWriteEnc (.pBri v) s = .next { s with encIn := { s.encIn with pBri := .holds v } }) ∧
    (∀ v, hostWriteEnc (.pKelvin v) s = .next { s with encIn := { s.encIn with pKelvin := .holds v } }) ∧
    (∀ v, hostWriteEnc (.pDim v) s = .next { s with encIn := { s.encIn with pDim := .holds v } }) ∧
    (∀ v, hostWriteEnc (.pPower v) s = .next { s with encIn := { s.encIn with pPower := .holds v } }) ∧
    (∀ v, hostWriteEnc (.pLabel v) s = .next { s with encIn := { s.encIn with pLabel := .holds v } }) ∧
    (∀ v, hostWriteEnc (.pTags v) s = .next { s with encIn := { s.encIn with pTags := .holds v } })

/-- From rule R231: a host write of an input of a unit with a transaction in flight is a fault, and with the unit idle every
write takes effect. That a write of `DEC_IN` from `min(DEC_LEN, 88)` on takes effect during a DECODE is the model's
inference from the rule's bound (log 9); the buffer's extent is log 11. A write of `DEC_IN` changes the one byte; which
register a write of an encoder input changes is `EncoderInputWrites`'s. -/
def Obligations.InputStability : Prop :=
  (∀ (s : State) (t : DecTxn) (i : Nat) (b : Byte), s.decUnit = .inFlight t → i < Config.maxInLen →
    (i < min t.input.length 88 → hostWriteDecIn i b s = .fault .inputChangedInFlight) ∧
    (min t.input.length 88 ≤ i → hostWriteDecIn i b s = .next { s with decIn := s.decIn.write i b })) ∧
  (∀ (s : State) (t : DecTxn) (n : Nat), s.decUnit = .inFlight t → n ≤ Config.maxInLen →
    hostWriteDecLen n s = .fault .inputChangedInFlight) ∧
  (∀ (s : State) (t : EncTxn) (w : EncWrite), s.encUnit = .inFlight t →
    hostWriteEnc w s = .fault .inputChangedInFlight) ∧
  (∀ (s : State) (i : Nat) (b : Byte), s.decUnit = .idle → i < Config.maxInLen →
    hostWriteDecIn i b s = .next { s with decIn := s.decIn.write i b }) ∧
  (∀ (s : State) (n : Nat), s.decUnit = .idle → n ≤ Config.maxInLen →
    hostWriteDecLen n s = .next { s with decLen := .holds n }) ∧
  (∀ (s : State) (w : EncWrite), s.encUnit = .idle → hostWriteEnc w s = .next { s with encIn := s.encIn.set w }) ∧
  (∀ (m : Mem) (i : Nat) (b : Byte) (j : Nat), (m.write i b).read j = if j = i then some b else m.read j)

/-- A request one of whose needed inputs was never written is a fault (rule R222; which inputs an ill-formed ENCODE needs
is log 10). -/
def Obligations.UnwrittenInputsFault : Prop :=
  (∀ s : State, s.decUnit = .idle → (s.decLen.written = false ∨
      ∃ n i, s.decLen = .holds n ∧ i < n ∧ s.decIn.read i = none) →
    exec .decode s = .fault .inputNotWritten) ∧
  (∀ s : State, s.encUnit = .idle →
    (s.encIn.version.written = false ∨ s.encIn.addr.written = false ∨ s.encIn.tagged.written = false ∨
      s.encIn.target.written = false ∨ s.encIn.site.written = false ∨ s.encIn.ack.written = false ∨
      s.encIn.atTime.written = false ∨ s.encIn.ptag.written = false ∨
      (s.encIn.ptag = .holds 0 ∧ s.encIn.emptyKind.written = false) ∨
      (s.encIn.ptag = .holds 2 ∧ (s.encIn.pVendor.written = false ∨ s.encIn.pProduct.written = false ∨
        s.encIn.pVersion.written = false)) ∨
      (s.encIn.ptag = .holds 4 ∧ (s.encIn.pTime.written = false ∨ s.encIn.pUptime.written = false ∨
        s.encIn.pDowntime.written = false)) ∨
      (s.encIn.ptag = .holds 5 ∧ (s.encIn.pHue.written = false ∨ s.encIn.pSat.written = false ∨
        s.encIn.pBri.written = false ∨ s.encIn.pKelvin.written = false ∨ s.encIn.pDim.written = false ∨
        s.encIn.pPower.written = false ∨ s.encIn.pLabel.written = false ∨ s.encIn.pTags.written = false))) →
    exec .encode s = .fault .inputNotWritten)

/-- Rules R28, R60 give the buffers their extents; that the model faults on an access outside them is its choice (log 11). -/
def Obligations.OutsideBufferFaults : Prop :=
  (∀ (s : State) (i : Nat) (b : Byte), Config.maxInLen ≤ i → hostWriteDecIn i b s = .fault .outsideBuffer) ∧
  (∀ (s : State) (n : Nat), Config.maxInLen < n → hostWriteDecLen n s = .fault .outsideBuffer) ∧
  (∀ (s : State) (i : Nat), s.encUnit = .idle → 88 ≤ i → hostReadReg (.encOut i) s = .fault .outsideBuffer)

/-- The COPY of rule R102: the frame's bytes are read from `ENC_OUT` and written to `DEC_IN`, and `DEC_LEN <- ENC_LEN`;
nothing else changes. It stops where one of its reads or writes does: it is refused while the encoder is busy (rule R230;
log 8), it is the fault of rule R231 while a DECODE is in flight and the encoder is idle (log 9), and it is the fault of
rule R36 while the encoder's status is not OK, or, in a state that no run reaches, where a byte below `ENC_LEN` holds no
value. That COPY is one action, and so which stop comes first, is the model's choice (log 18). -/
def Obligations.CopyMovesFrame : Prop :=
  (∀ s : State, s.decUnit = .idle → s.encUnit = .idle → s.encStatus = statusOk →
    (∀ i, i < s.encLen.toNat → ∃ b, s.encOut.read i = some b) →
    ∃ m, hostCopy s = .next { s with decIn := m, decLen := .holds s.encLen.toNat } ∧
      ∀ i, m.read i = if i < s.encLen.toNat then s.encOut.read i else s.decIn.read i) ∧
  (∀ (s : State) (t : EncTxn), s.encUnit = .inFlight t → hostCopy s = .refused .hostActsWhileBusy) ∧
  (∀ (s : State) (t : DecTxn), s.encUnit = .idle → s.decUnit = .inFlight t →
    hostCopy s = .fault .inputChangedInFlight) ∧
  (∀ s : State, s.decUnit = .idle → s.encUnit = .idle → s.encStatus ≠ statusOk →
    hostCopy s = .fault .unspecifiedRead) ∧
  (∀ (s : State) (i : Nat), s.decUnit = .idle → s.encUnit = .idle → s.encStatus = statusOk → i < s.encLen.toNat →
    s.encOut.read i = none → hostCopy s = .fault .unspecifiedRead) ∧
  (∀ s : State, s.Inv → s.decUnit = .idle → s.encUnit = .idle → s.encStatus = statusOk → ∃ t, hostCopy s = .next t)
end

