-- ==== Sys2Proof/Laws/State.lean ====
section
/-! SUPPORT. The fields of a state after each shared update, one lemma a field, and the busy bits. -/

namespace Sys2Proof.Machine

/-! `commitDecode`. -/

@[simp] theorem commitDecode_decIn (h : Header) (win : Nat) (p : Payload) (s : State) :
    (commitDecode h win p s).decIn = s.decIn := rfl

@[simp] theorem commitDecode_decLen (h : Header) (win : Nat) (p : Payload) (s : State) :
    (commitDecode h win p s).decLen = s.decLen := rfl

@[simp] theorem commitDecode_decUnit (h : Header) (win : Nat) (p : Payload) (s : State) :
    (commitDecode h win p s).decUnit = .idle := rfl

@[simp] theorem commitDecode_decStatus (h : Header) (win : Nat) (p : Payload) (s : State) :
    (commitDecode h win p s).decStatus = statusOk := rfl

@[simp] theorem commitDecode_decRegs (h : Header) (win : Nat) (p : Payload) (s : State) :
    (commitDecode h win p s).decRegs = s.decRegs.withResult h win p := rfl

@[simp] theorem commitDecode_encIn (h : Header) (win : Nat) (p : Payload) (s : State) :
    (commitDecode h win p s).encIn = s.encIn := rfl

@[simp] theorem commitDecode_encUnit (h : Header) (win : Nat) (p : Payload) (s : State) :
    (commitDecode h win p s).encUnit = s.encUnit := rfl

@[simp] theorem commitDecode_encStatus (h : Header) (win : Nat) (p : Payload) (s : State) :
    (commitDecode h win p s).encStatus = s.encStatus := rfl

@[simp] theorem commitDecode_encOut (h : Header) (win : Nat) (p : Payload) (s : State) :
    (commitDecode h win p s).encOut = s.encOut := rfl

@[simp] theorem commitDecode_encLen (h : Header) (win : Nat) (p : Payload) (s : State) :
    (commitDecode h win p s).encLen = s.encLen := rfl

@[simp] theorem commitDecode_mover (h : Header) (win : Nat) (p : Payload) (s : State) :
    (commitDecode h win p s).mover = s.mover := rfl

@[simp] theorem commitDecode_agenda (h : Header) (win : Nat) (p : Payload) (s : State) :
    (commitDecode h win p s).agenda = s.agenda := rfl

@[simp] theorem commitDecode_hostRead (h : Header) (win : Nat) (p : Payload) (s : State) :
    (commitDecode h win p s).hostRead = s.hostRead := rfl

/-! `commitEncode`. -/

@[simp] theorem commitEncode_decIn (len : Nat) (out : Mem) (s : State) :
    (commitEncode len out s).decIn = s.decIn := rfl

@[simp] theorem commitEncode_decLen (len : Nat) (out : Mem) (s : State) :
    (commitEncode len out s).decLen = s.decLen := rfl

@[simp] theorem commitEncode_decUnit (len : Nat) (out : Mem) (s : State) :
    (commitEncode len out s).decUnit = s.decUnit := rfl

@[simp] theorem commitEncode_decStatus (len : Nat) (out : Mem) (s : State) :
    (commitEncode len out s).decStatus = s.decStatus := rfl

@[simp] theorem commitEncode_decRegs (len : Nat) (out : Mem) (s : State) :
    (commitEncode len out s).decRegs = s.decRegs := rfl

@[simp] theorem commitEncode_encIn (len : Nat) (out : Mem) (s : State) :
    (commitEncode len out s).encIn = s.encIn := rfl

@[simp] theorem commitEncode_encUnit (len : Nat) (out : Mem) (s : State) :
    (commitEncode len out s).encUnit = .idle := rfl

@[simp] theorem commitEncode_encStatus (len : Nat) (out : Mem) (s : State) :
    (commitEncode len out s).encStatus = statusOk := rfl

@[simp] theorem commitEncode_encOut (len : Nat) (out : Mem) (s : State) :
    (commitEncode len out s).encOut = out := rfl

@[simp] theorem commitEncode_encLen (len : Nat) (out : Mem) (s : State) :
    (commitEncode len out s).encLen = BitVec.ofNat 16 len := rfl

@[simp] theorem commitEncode_mover (len : Nat) (out : Mem) (s : State) :
    (commitEncode len out s).mover = s.mover := rfl

@[simp] theorem commitEncode_agenda (len : Nat) (out : Mem) (s : State) :
    (commitEncode len out s).agenda = s.agenda := rfl

@[simp] theorem commitEncode_hostRead (len : Nat) (out : Mem) (s : State) :
    (commitEncode len out s).hostRead = s.hostRead := rfl

/-! `raiseError_dec`. -/

@[simp] theorem raiseError_dec_decIn (s : State) :
    (raiseError .dec s).decIn = s.decIn := rfl

@[simp] theorem raiseError_dec_decLen (s : State) :
    (raiseError .dec s).decLen = s.decLen := rfl

@[simp] theorem raiseError_dec_decUnit (s : State) :
    (raiseError .dec s).decUnit = .idle := rfl

@[simp] theorem raiseError_dec_decStatus (s : State) :
    (raiseError .dec s).decStatus = statusError := rfl

@[simp] theorem raiseError_dec_decRegs (s : State) :
    (raiseError .dec s).decRegs = s.decRegs := rfl

@[simp] theorem raiseError_dec_encIn (s : State) :
    (raiseError .dec s).encIn = s.encIn := rfl

@[simp] theorem raiseError_dec_encUnit (s : State) :
    (raiseError .dec s).encUnit = s.encUnit := rfl

@[simp] theorem raiseError_dec_encStatus (s : State) :
    (raiseError .dec s).encStatus = s.encStatus := rfl

@[simp] theorem raiseError_dec_encOut (s : State) :
    (raiseError .dec s).encOut = s.encOut := rfl

@[simp] theorem raiseError_dec_encLen (s : State) :
    (raiseError .dec s).encLen = s.encLen := rfl

@[simp] theorem raiseError_dec_mover (s : State) :
    (raiseError .dec s).mover = s.mover := rfl

@[simp] theorem raiseError_dec_agenda (s : State) :
    (raiseError .dec s).agenda = s.agenda := rfl

@[simp] theorem raiseError_dec_hostRead (s : State) :
    (raiseError .dec s).hostRead = s.hostRead := rfl

/-! `raiseError_enc`. -/

@[simp] theorem raiseError_enc_decIn (s : State) :
    (raiseError .enc s).decIn = s.decIn := rfl

@[simp] theorem raiseError_enc_decLen (s : State) :
    (raiseError .enc s).decLen = s.decLen := rfl

@[simp] theorem raiseError_enc_decUnit (s : State) :
    (raiseError .enc s).decUnit = s.decUnit := rfl

@[simp] theorem raiseError_enc_decStatus (s : State) :
    (raiseError .enc s).decStatus = s.decStatus := rfl

@[simp] theorem raiseError_enc_decRegs (s : State) :
    (raiseError .enc s).decRegs = s.decRegs := rfl

@[simp] theorem raiseError_enc_encIn (s : State) :
    (raiseError .enc s).encIn = s.encIn := rfl

@[simp] theorem raiseError_enc_encUnit (s : State) :
    (raiseError .enc s).encUnit = .idle := rfl

@[simp] theorem raiseError_enc_encStatus (s : State) :
    (raiseError .enc s).encStatus = statusError := rfl

@[simp] theorem raiseError_enc_encOut (s : State) :
    (raiseError .enc s).encOut = s.encOut := rfl

@[simp] theorem raiseError_enc_encLen (s : State) :
    (raiseError .enc s).encLen = s.encLen := rfl

@[simp] theorem raiseError_enc_mover (s : State) :
    (raiseError .enc s).mover = s.mover := rfl

@[simp] theorem raiseError_enc_agenda (s : State) :
    (raiseError .enc s).agenda = s.agenda := rfl

@[simp] theorem raiseError_enc_hostRead (s : State) :
    (raiseError .enc s).hostRead = s.hostRead := rfl

/-! `resetState`. -/

@[simp] theorem resetState_decIn (s : State) :
    (resetState s).decIn = State.reset.decIn := rfl

@[simp] theorem resetState_decLen (s : State) :
    (resetState s).decLen = State.reset.decLen := rfl

@[simp] theorem resetState_decUnit (s : State) :
    (resetState s).decUnit = State.reset.decUnit := rfl

@[simp] theorem resetState_decStatus (s : State) :
    (resetState s).decStatus = State.reset.decStatus := rfl

@[simp] theorem resetState_decRegs (s : State) :
    (resetState s).decRegs = State.reset.decRegs := rfl

@[simp] theorem resetState_encIn (s : State) :
    (resetState s).encIn = State.reset.encIn := rfl

@[simp] theorem resetState_encUnit (s : State) :
    (resetState s).encUnit = State.reset.encUnit := rfl

@[simp] theorem resetState_encStatus (s : State) :
    (resetState s).encStatus = State.reset.encStatus := rfl

@[simp] theorem resetState_encOut (s : State) :
    (resetState s).encOut = State.reset.encOut := rfl

@[simp] theorem resetState_encLen (s : State) :
    (resetState s).encLen = State.reset.encLen := rfl

@[simp] theorem resetState_mover (s : State) :
    (resetState s).mover = s.mover := rfl

@[simp] theorem resetState_agenda (s : State) :
    (resetState s).agenda = s.agenda := rfl

@[simp] theorem resetState_hostRead (s : State) :
    (resetState s).hostRead = s.hostRead := rfl

/-! The busy bits. -/

@[simp] theorem decBusy_eq_false (s : State) : s.decBusy = false ↔ s.decUnit = .idle := by
  unfold State.decBusy; split <;> simp_all

@[simp] theorem decBusy_eq_true (s : State) : s.decBusy = true ↔ ∃ t, s.decUnit = .inFlight t := by
  unfold State.decBusy; split <;> simp_all

@[simp] theorem encBusy_eq_false (s : State) : s.encBusy = false ↔ s.encUnit = .idle := by
  unfold State.encBusy; split <;> simp_all

@[simp] theorem encBusy_eq_true (s : State) : s.encBusy = true ↔ ∃ t, s.encUnit = .inFlight t := by
  unfold State.encBusy; split <;> simp_all

/-! Which results are specified (rule R36). -/

@[simp] theorem decSpecified_eq_true (s : State) (r : DecReg) :
    s.decSpecified r = true ↔
      s.decStatus = statusOk ∧ (r.payloadTag = none ∨ r.payloadTag = some s.decRegs.ptag) := by
  unfold State.decSpecified
  cases r.payloadTag <;> simp

@[simp] theorem encSpecified_eq_true (s : State) : s.encSpecified = true ↔ s.encStatus = statusOk := by
  simp [State.encSpecified]

/-- A read of a decoder result register of an idle unit delivers its value where it is specified, and else faults. -/
theorem hostReadReg_dec (s : State) (r : DecReg) (h : s.decUnit = .idle) :
    hostReadReg (.dec r) s =
      if s.decSpecified r then .next { s with hostRead := some (s.decRegs.readValue r) } else .fault .unspecifiedRead := by
  simp only [hostReadReg, (decBusy_eq_false s).2 h]
  cases s.decSpecified r <;> rfl

/-- What a read of a decoder result register of an idle unit delivers. -/
theorem delivered_dec (s : State) (r : DecReg) (h : s.decUnit = .idle) :
    delivered (.dec r) s = if s.decSpecified r then some (s.decRegs.readValue r) else none := by
  rw [delivered, hostReadReg_dec s r h]
  cases s.decSpecified r <;> rfl

/-- The header registers after an OK decode hold the header, the window and the tag (rule R125). -/
theorem withResult_hasHeader (r : DecRegs) (h : Header) (win : Nat) (p : Payload) :
    (r.withResult h win p).hasHeader h win p.tag := by
  cases p <;> exact ⟨rfl, rfl, rfl, rfl, rfl, rfl, rfl, rfl, rfl, rfl, rfl⟩

/-- The payload registers of the variant hold its fields after an OK decode (rule R125). -/
theorem withResult_hasPayload (r : DecRegs) (h : Header) (win : Nat) (p : Payload) :
    (r.withResult h win p).hasPayload p := by
  cases p <;> simp [DecRegs.hasPayload, DecRegs.withResult, DecRegs.withPayload]

@[simp] theorem withResult_ptag (r : DecRegs) (h : Header) (win : Nat) (p : Payload) :
    (r.withResult h win p).ptag = p.tag := (withResult_hasHeader r h win p).2.2.2.2.2.2.2.2.2.2

/-- What a specified register delivers after an OK decode does not depend on what the registers held before. -/
theorem withResult_readValue (r r' : DecRegs) (h : Header) (win : Nat) (p : Payload) (x : DecReg)
    (hx : x.payloadTag = none ∨ x.payloadTag = some p.tag) :
    (r.withResult h win p).readValue x = (r'.withResult h win p).readValue x := by
  cases p <;> cases x <;> first | rfl | simp [DecReg.payloadTag, Payload.tag] at hx

/-! The inputs. -/

@[simp] theorem input_get?_eq_some {α : Type} (x : Input α) (v : α) : x.get? = some v ↔ x = .holds v := by
  obtain ⟨w, _ | _⟩ := x <;> simp [Input.get?]

@[simp] theorem input_get?_eq_none {α : Type} (x : Input α) : x.get? = none ↔ x.written = false := by
  obtain ⟨w, _ | _⟩ := x <;> simp [Input.get?]

@[simp] theorem input_get?_holds {α : Type} (v : α) : (Input.holds v).get? = some v := rfl

/-- `MAX_IN_LEN` is at least 88 (rule R7). -/
theorem le_maxInLen : 88 ≤ Config.maxInLen := Nat.le_add_left ..

end Sys2Proof.Machine
end

