-- ==== Sys2Proof/Laws/Mem.lean ====
section
/-! SUPPORT. Byte buffers: reads after writes, the canonical form, and contiguous writes as lists of bytes. -/

namespace Sys2Proof.Machine

@[simp] theorem read_nil (a : Nat) : Mem.read [] a = none := rfl

/-- A read after a write of one byte. -/
theorem read_write (m : Mem) (a : Nat) (b : Byte) (x : Nat) :
    (m.write a b).read x = if x = a then some b else m.read x := by
  induction m with
  | nil => simp only [Mem.write, Mem.read, eq_comm]
  | cons c m ih =>
    obtain ⟨k, v⟩ := c
    simp only [Mem.write]
    split_ifs <;> simp_all [Mem.read] <;> grind

/-- A read after a contiguous write. -/
theorem read_memWriteBytes (off : Nat) (bs : List Byte) (m : Mem) (x : Nat) :
    (memWriteBytes off bs m).read x = if off ≤ x ∧ x < off + bs.length then bs[x - off]? else m.read x := by
  induction bs generalizing off m with
  | nil => simp [memWriteBytes]
  | cons b bs ih =>
    simp only [memWriteBytes, ih, read_write, List.length_cons]
    by_cases h : x = off
    · subst h; simp
    · have : off + 1 ≤ x → x - off = (x - (off + 1)) + 1 := by omega
      split_ifs <;> first | omega | (rw [this (by omega)]; simp) | rfl

/-- A canonical buffer's first offset lies below the others. -/
theorem wf_cons (a : Nat) (b : Byte) (m : Mem) :
    Mem.wf ((a, b) :: m) = true ↔ (∀ c ∈ m, a < c.1) ∧ m.wf = true := by
  induction m generalizing a b with
  | nil => simp [Mem.wf]
  | cons c m ih =>
    obtain ⟨k, v⟩ := c
    simp only [Mem.wf, Bool.and_eq_true, decide_eq_true_eq, List.mem_cons, forall_eq_or_imp, ih]
    constructor
    · rintro ⟨h, h1, h2⟩; exact ⟨⟨h, fun c hc => Nat.lt_trans h (h1 c hc)⟩, h1, h2⟩
    · rintro ⟨⟨h, _⟩, h2⟩; exact ⟨h, h2⟩

/-- The offsets of a buffer after a write. -/
theorem mem_write (m : Mem) (a : Nat) (b : Byte) (c : Nat × Byte) :
    c ∈ m.write a b → c = (a, b) ∨ c ∈ m := by
  induction m with
  | nil => simp [Mem.write]
  | cons d m ih =>
    obtain ⟨k, v⟩ := d
    simp only [Mem.write]
    split_ifs <;> simp only [List.mem_cons] <;> grind

/-- A write keeps the canonical form. -/
theorem wf_write (m : Mem) (a : Nat) (b : Byte) (h : m.wf = true) : (m.write a b).wf = true := by
  induction m with
  | nil => rfl
  | cons c m ih =>
    obtain ⟨k, v⟩ := c
    rw [wf_cons] at h
    simp only [Mem.write]
    split_ifs with h1 h2
    · rw [wf_cons, wf_cons]
      refine ⟨?_, h⟩
      rintro c (_ | ⟨_, hc⟩)
      · exact h1
      · exact Nat.lt_trans h1 (h.1 _ hc)
    · subst h2; rw [wf_cons]; exact h
    · rw [wf_cons]
      refine ⟨fun c hc => ?_, ih h.2⟩
      rcases mem_write _ _ _ _ hc with rfl | hc
      · show k < a; omega
      · exact h.1 _ hc

/-- A contiguous write keeps the canonical form. -/
theorem wf_memWriteBytes (off : Nat) (bs : List Byte) (m : Mem) (h : m.wf = true) :
    (memWriteBytes off bs m).wf = true := by
  induction bs generalizing off m with
  | nil => exact h
  | cons b bs ih => exact ih _ _ (wf_write _ _ _ h)

/-- A little-endian write keeps the canonical form. -/
theorem wf_memWrite (off n v : Nat) (m : Mem) (h : m.wf = true) : (memWrite off n v m).wf = true :=
  wf_memWriteBytes _ _ _ h

/-- A write below a bound keeps every offset below it. -/
theorem below_write (m : Mem) (a : Nat) (b : Byte) (n : Nat) (ha : a < n) (h : m.below n = true) :
    (m.write a b).below n = true := by
  simp only [Mem.below, List.all_eq_true, decide_eq_true_eq] at *
  intro c hc
  rcases mem_write _ _ _ _ hc with rfl | hc
  · exact ha
  · exact h _ hc

/-- A contiguous write below a bound keeps every offset below it. -/
theorem below_memWriteBytes (off : Nat) (bs : List Byte) (m : Mem) (n : Nat) (ha : off + bs.length ≤ n)
    (h : m.below n = true) : (memWriteBytes off bs m).below n = true := by
  induction bs generalizing off m with
  | nil => exact h
  | cons b bs ih =>
    simp only [List.length_cons] at ha
    exact ih _ _ (by omega) (below_write _ _ _ _ (by omega) h)

/-! Frames from offset 0 on. -/

/-- A write behind every listed offset appends. -/
theorem write_append (m : Mem) (a : Nat) (b : Byte) (h : ∀ c ∈ m, c.1 < a) : m.write a b = m ++ [(a, b)] := by
  induction m with
  | nil => rfl
  | cons c m ih =>
    obtain ⟨k, v⟩ := c
    have hk : k < a := h (k, v) (List.mem_cons_self ..)
    simp only [Mem.write, List.cons_append]
    rw [if_neg (by omega), if_neg (by omega), ih fun c hc => h c (List.mem_cons_of_mem _ hc)]

theorem ofBytes_snoc (b : List Byte) (x : Byte) : Mem.ofBytes (b ++ [x]) = Mem.ofBytes b ++ [(b.length, x)] := by
  simp only [Mem.ofBytes, List.length_append, List.length_singleton, List.range_succ]
  rw [List.zip_append (by simp)]; rfl

theorem ofBytes_fst_lt (b : List Byte) (c : Nat × Byte) (h : c ∈ Mem.ofBytes b) : c.1 < b.length := by
  have := List.of_mem_zip (a := c.1) (b := c.2) h
  simpa using this.1

/-- A contiguous write behind the bytes held so far holds them and the written bytes. -/
theorem memWriteBytes_ofBytes (b bs : List Byte) (off : Nat) (h : off = b.length) :
    memWriteBytes off bs (Mem.ofBytes b) = Mem.ofBytes (b ++ bs) := by
  subst h
  induction bs generalizing b with
  | nil => simp [memWriteBytes]
  | cons x bs ih =>
    rw [memWriteBytes, write_append _ _ _ (ofBytes_fst_lt b), ← ofBytes_snoc]
    have := ih (b ++ [x])
    simp only [List.length_append, List.length_singleton] at this
    rw [this]; simp

theorem ofBytes_nil : Mem.ofBytes [] = [] := rfl

/-- What a frame's buffer reads as. -/
theorem read_ofBytes (b : List Byte) (x : Nat) : (Mem.ofBytes b).read x = b[x]? := by
  rw [← List.nil_append b, ← memWriteBytes_ofBytes [] b 0 rfl, read_memWriteBytes, ofBytes_nil]
  by_cases h : x < b.length <;> simp [h]

theorem wf_ofBytes (b : List Byte) : (Mem.ofBytes b).wf = true := by
  rw [← List.nil_append b, ← memWriteBytes_ofBytes [] b 0 rfl]; exact wf_memWriteBytes _ _ _ rfl

/-- Reading a range that holds values gives the bytes, one by one. -/
theorem readRange_eq_some (m : Mem) (off n : Nat) (bs : List Byte) :
    m.readRange off n = some bs ↔ bs.length = n ∧ ∀ i, i < n → m.read (off + i) = bs[i]? := by
  induction n generalizing off bs with
  | zero => cases bs <;> simp [Mem.readRange]
  | succ n ih =>
    simp only [Mem.readRange]
    constructor
    · intro h
      split at h
      · next b r hb hr =>
        obtain ⟨rfl⟩ := Option.some.inj h
        obtain ⟨hl, hr⟩ := (ih _ _).1 hr
        refine ⟨by simp [hl], fun i hi => ?_⟩
        cases i with
        | zero => simpa using hb
        | succ i => have := hr i (by omega); rw [Nat.add_assoc, Nat.add_comm 1 i] at this; simpa using this
      · cases h
    · rintro ⟨hl, h⟩
      cases bs with
      | nil => simp at hl
      | cons b r =>
        have h0 := h 0 (by omega)
        have hr : m.readRange (off + 1) n = some r := (ih _ _).2 ⟨by simpa using hl, fun i hi => by
          have := h (i + 1) (by omega); rw [show off + (i + 1) = off + 1 + i by omega] at this; simpa using this⟩
        simp at h0
        simp [h0, hr]

/-- A frame's buffer read from offset 0 over its whole length gives the frame. -/
theorem readRange_ofBytes (b : List Byte) : (Mem.ofBytes b).readRange 0 b.length = some b :=
  (readRange_eq_some ..).2 ⟨rfl, fun i _ => by rw [Nat.zero_add, read_ofBytes]⟩

/-! Little-endian integers (rule R62). -/

@[simp] theorem leBytes_length (n v : Nat) : (leBytes n v).length = n := by
  induction n generalizing v with
  | zero => rfl
  | succ n ih => simp [leBytes, ih]

theorem leNat_lt (bs : List Byte) : leNat bs < 256 ^ bs.length := by
  induction bs with
  | nil => simp [leNat]
  | cons b bs ih =>
    simp only [leNat, List.length_cons, Nat.pow_succ]
    have := b.isLt
    omega

/-- Writing and reading a little-endian integer of `n` bytes gives it back. -/
theorem leNat_leBytes (n v : Nat) (h : v < 256 ^ n) : leNat (leBytes n v) = v := by
  induction n generalizing v with
  | zero => simp at h; simp [leBytes, leNat, h]
  | succ n ih =>
    rw [Nat.pow_succ] at h
    simp only [leBytes, leNat, BitVec.toNat_ofNat]
    rw [ih _ (by omega)]
    omega

/-- Reading and writing a little-endian integer gives its bytes back. -/
theorem leBytes_leNat (bs : List Byte) : leBytes bs.length (leNat bs) = bs := by
  induction bs with
  | nil => rfl
  | cons b bs ih =>
    have hb := b.isLt
    simp only [List.length_cons, leBytes, leNat]
    rw [show (b.toNat + 256 * leNat bs) / 256 = leNat bs by omega, ih]
    congr 1
    apply BitVec.eq_of_toNat_eq
    rw [BitVec.toNat_ofNat]; omega

end Sys2Proof.Machine
end

