-- ==== Sys2Proof/Laws/Codec.lean ====
section
/-! SUPPORT. What the reads and writes of the codec give, in the terms of the frame layout of Safety: the header stage,
the payload rules, the header writes and the payload writes. -/

namespace Sys2Proof.Machine

/-! Reads. -/

@[simp] theorem except_bind_ok {ε α β : Type} (a : α) (f : α → Except ε β) : (Except.ok a >>= f) = f a := rfl

@[simp] theorem except_bind_error {ε α β : Type} (e : ε) (f : α → Except ε β) : (Except.error e >>= f) = .error e := rfl

@[simp] theorem except_map_ok {ε α β : Type} (a : α) (f : α → β) : (Except.ok a : Except ε α).map f = .ok (f a) := rfl

@[simp] theorem except_map_error {ε α β : Type} (e : ε) (f : α → β) :
    (Except.error e : Except ε α).map f = .error e := rfl

theorem takeD_eq_take (l : List Byte) (n : Nat) (h : n ≤ l.length) : l.takeD n 0 = l.take n := by
  induction n generalizing l with
  | zero => simp
  | succ n ih =>
    cases l with
    | nil => simp at h
    | cons x l => simpa using ih l (by simpa using h)

theorem memReadBytes_ok (input : List Byte) (off n : Nat) (h : off + n ≤ input.length) :
    memReadBytes input off n = .ok (frameBytes input off n) := by
  simp only [memReadBytes, dif_pos h, frameBytes]
  congr 2
  rw [takeD_eq_take _ _ (by rw [List.length_drop]; omega)]

theorem memReadBytes_error (input : List Byte) (off n : Nat) (h : input.length < off + n) :
    memReadBytes input off n = .error ⟨off, n⟩ := by
  rw [memReadBytes, dif_neg (by omega)]

/-- A little-endian read inside the input. -/
theorem memRead_ok (input : List Byte) (off n : Nat) (h : off + n ≤ input.length) :
    memRead input off n = .ok (frameNat input off n) := by
  simp only [memRead, memReadBytes, dif_pos h, frameNat]

/-- A little-endian read that crosses the end (rule R11). -/
theorem memRead_error (input : List Byte) (off n : Nat) (h : input.length < off + n) :
    memRead input off n = .error ⟨off, n⟩ := by
  simp only [memRead, memReadBytes_error _ _ _ h]

theorem frameNat_lt (b : List Byte) (off n : Nat) : frameNat b off n < 256 ^ n := by
  have h := leNat_lt ((b.drop off).take n)
  exact Nat.lt_of_lt_of_le h (Nat.pow_le_pow_right (by omega) (by simp))

theorem protocolVersion_ofNat (v : Nat) : protocolVersion (BitVec.ofNat 16 v) = BitVec.ofNat 12 v := by
  apply BitVec.eq_of_toNat_eq
  simp [protocolVersion]

theorem getLsbD_ofNat_div (v i : Nat) (h : i < 16) : (BitVec.ofNat 16 v).getLsbD i = (v / 2 ^ i % 2 == 1) := by
  rw [BitVec.getLsbD_ofNat]
  simp [h, Nat.testBit_eq_decide_div_mod_eq, Bool.beq_eq_decide_eq]

/-- The header stage on 36 bytes or more (rules R110 to R119, R123). -/
theorem headerStage_ok (input : List Byte) (h : 36 ≤ input.length) : headerStage input = .ok (frameHeader input) := by
  simp (disch := omega) only [headerStage, readSize, readProtocol, readTransaction, readTarget, readSite, readAck,
    readAtTime, readKind, readTail, memRead_ok, memReadBytes_ok, except_map_ok, except_bind_ok]
  simp only [frameHeader, protocolAddressable, protocolTagged, ackAcknowledge, protocolVersion_ofNat,
    getLsbD_ofNat_div _ _ (by omega : 12 < 16), getLsbD_ofNat_div _ _ (by omega : 13 < 16),
    getLsbD_ofNat_div _ _ (by omega : 0 < 16), Nat.reducePow, Nat.div_one]
  rfl

/-- The read that the header stage fails at, on fewer than 36 bytes: the first field that crosses the end. -/
def shortField (n : Nat) : TruncatedInput :=
  if n < 2 then ⟨0, 2⟩ else if n < 4 then ⟨2, 2⟩ else if n < 8 then ⟨4, 4⟩ else if n < 16 then ⟨8, 8⟩
  else if n < 22 then ⟨16, 6⟩ else if n < 24 then ⟨22, 2⟩ else if n < 32 then ⟨24, 8⟩ else if n < 34 then ⟨32, 2⟩
  else ⟨34, 2⟩

/-- The header stage on fewer than 36 bytes raises TruncatedInput (rule R123) at the first short read. -/
theorem headerStage_error (input : List Byte) (h : input.length < 36) :
    headerStage input = .error (shortField input.length) := by
  rcases (by omega : input.length < 2 ∨ (2 ≤ input.length ∧ input.length < 4) ∨ (4 ≤ input.length ∧ input.length < 8) ∨
    (8 ≤ input.length ∧ input.length < 16) ∨ (16 ≤ input.length ∧ input.length < 22) ∨
    (22 ≤ input.length ∧ input.length < 24) ∨ (24 ≤ input.length ∧ input.length < 32) ∨
    (32 ≤ input.length ∧ input.length < 34) ∨ 34 ≤ input.length) with
    h | h | h | h | h | h | h | h | h <;>
  simp (disch := omega) only [headerStage, readSize, readProtocol, readTransaction, readTarget, readSite, readAck,
    readAtTime, readKind, readTail, memRead_ok, memReadBytes_ok, memRead_error, memReadBytes_error, except_map_ok,
    except_map_error, except_bind_ok, except_bind_error, shortField, if_pos, if_neg]

/-- The window length never exceeds 65499 (rule R32). -/
theorem payloadWindow_le (size : BitVec 16) (n : Nat) : payloadWindow size n ≤ 65499 := by
  have := size.isLt
  unfold payloadWindow; omega

/-- The window lies inside the input (rule R140). -/
theorem payloadWindow_le_len (size : BitVec 16) (n : Nat) : payloadWindow size n ≤ n - 36 := by
  unfold payloadWindow; omega

theorem pRead_ok (input : List Byte) (win w n : Nat) (h : w + n ≤ win) (hw : win ≤ input.length - 36)
    (hl : 36 ≤ input.length) : pRead input win w n = .ok (frameNat input (36 + w) n) := by
  rw [pRead, if_neg (by omega), memRead_ok _ _ _ (by omega)]

theorem pRead_error (input : List Byte) (win w n : Nat) (h : win < w + n) :
    pRead input win w n = .error ⟨36 + w, n⟩ := by
  rw [pRead, if_pos h]

theorem pReadBytes_ok (input : List Byte) (win w n : Nat) (h : w + n ≤ win) (hw : win ≤ input.length - 36)
    (hl : 36 ≤ input.length) : pReadBytes input win w n = .ok (frameBytes input (36 + w) n) := by
  rw [pReadBytes, if_neg (by omega), memReadBytes_ok _ _ _ (by omega)]

/-! Variants. -/

theorem decodeKind_cases (k : BitVec 16) :
    (k = 32 ∧ decodeKind k = .deviceGetVersion) ∨ (k = 33 ∧ decodeKind k = .deviceStateVersion) ∨
    (k = 34 ∧ decodeKind k = .deviceGetInfo) ∨ (k = 35 ∧ decodeKind k = .deviceStateInfo) ∨
    (k = 107 ∧ decodeKind k = .lightState) ∨
    (k ≠ 32 ∧ k ≠ 33 ∧ k ≠ 34 ∧ k ≠ 35 ∧ k ≠ 107 ∧ decodeKind k = .empty k) := by
  unfold decodeKind
  split_ifs <;> simp_all

theorem tableKind_eq_false (k : BitVec 16) :
    tableKind k = false ↔ k ≠ 32 ∧ k ≠ 33 ∧ k ≠ 34 ∧ k ≠ 35 ∧ k ≠ 107 := by
  simp [tableKind, and_assoc]

theorem kindLen_eq (k : BitVec 16) :
    kindLen k = if k = 33 then 12 else if k = 35 then 24 else if k = 107 then 52 else 0 := by
  have e : ∀ n : BitVec 16, k = n ↔ k.toNat = n.toNat := fun n => BitVec.toNat_inj.symm
  simp only [e, kindLen]
  generalize k.toNat = v
  simp only [BitVec.reduceToNat]
  split <;> simp_all

/-- The payload of a kind outside the table. -/
theorem framePayload_empty (k : BitVec 16) (b : List Byte) (h : tableKind k = false) : framePayload k b = .empty k := by
  rw [tableKind_eq_false] at h
  have e : ∀ n : BitVec 16, k = n ↔ k.toNat = n.toNat := fun n => BitVec.toNat_inj.symm
  simp only [ne_eq, e, BitVec.reduceToNat] at h
  unfold framePayload
  split <;> simp_all

/-- `LEN` of the format that a kind selects (rules R6, R95). -/
theorem payloadLen_decodeKind (k : BitVec 16) : payloadLen (decodeKind k) = kindLen k := by
  rcases decodeKind_cases k with ⟨rfl, h⟩ | ⟨rfl, h⟩ | ⟨rfl, h⟩ | ⟨rfl, h⟩ | ⟨rfl, h⟩ | ⟨h1, h2, h3, h4, h5, h⟩ <;>
    simp_all [payloadLen, kindLen_eq]

/-- The payload of a frame belongs to the format that the kind selects (rule R122). -/
theorem framePayload_variant (k : BitVec 16) (b : List Byte) : (framePayload k b).variant = decodeKind k := by
  rcases decodeKind_cases k with ⟨rfl, h⟩ | ⟨rfl, h⟩ | ⟨rfl, h⟩ | ⟨rfl, h⟩ | ⟨rfl, h⟩ | ⟨h1, h2, h3, h4, h5, h⟩
  all_goals first
    | rfl
    | rw [framePayload_empty k b ((tableKind_eq_false k).2 ⟨h1, h2, h3, h4, h5⟩), h]; rfl

/-- The payload of a frame has the frame's kind (rules R24, R122). -/
theorem framePayload_kind (k : BitVec 16) (b : List Byte) : (framePayload k b).kind = k := by
  rcases decodeKind_cases k with ⟨rfl, h⟩ | ⟨rfl, h⟩ | ⟨rfl, h⟩ | ⟨rfl, h⟩ | ⟨rfl, h⟩ | ⟨h1, h2, h3, h4, h5, h⟩
  all_goals first
    | rfl
    | rw [framePayload_empty k b ((tableKind_eq_false k).2 ⟨h1, h2, h3, h4, h5⟩)]; rfl

/-- A well-formed variant is the one that its kind selects (rules R95, R161). -/
theorem decodeKind_kind (p : Payload) (h : p.variant.wellFormed = true) : decodeKind p.kind = p.variant := by
  cases p
  case empty k =>
    have h : tableKind k = false := by simpa [Payload.variant, Instr.wellFormed] using h
    rw [tableKind_eq_false] at h
    obtain ⟨h1, h2, h3, h4, h5⟩ := h
    show decodeKind k = .empty k
    unfold decodeKind
    split_ifs <;> first | contradiction | rfl
  all_goals rfl

/-- `LEN` of a well-formed variant, by its kind. -/
theorem len_eq_kindLen (p : Payload) (h : p.variant.wellFormed = true) : p.len = kindLen p.kind := by
  rw [Payload.len, ← decodeKind_kind p h, payloadLen_decodeKind]

/-! The payload formats on the decoder. -/

/-- Completion of a DECODE at its payload stage by the format that the kind selects (rules R122, R125, R140 to R146, R193):
the one lemma about the payload formats on the decoder. -/
theorem exec_on_decoder (s : State) (input : List Byte) (cur : Nat) (h : Header) (win : Nat)
    (hm : s.mover = .dec) (hu : s.decUnit = .inFlight ⟨input, cur, .payload h win⟩)
    (hl : 36 ≤ input.length) (hw : win ≤ input.length - 36) :
    exec (decodeKind h.kind) s =
      .next (if kindLen h.kind ≤ win then commitDecode h win (framePayload h.kind input) s else raiseError .dec s) := by
  rcases decodeKind_cases h.kind with ⟨hk, hi⟩ | ⟨hk, hi⟩ | ⟨hk, hi⟩ | ⟨hk, hi⟩ | ⟨hk, hi⟩ | ⟨h1, h2, h3, h4, h5, hi⟩
  · simp only [hi, exec, execDeviceGetVersion, runVariant, hm, completeDecode, hu, if_true]
    simp [hk, kindLen, framePayload]
  · rcases (by omega : 12 ≤ win ∨ win < 4 ∨ (4 ≤ win ∧ win < 8) ∨ (8 ≤ win ∧ win < 12)) with c | c | c | c <;>
    simp (disch := omega) only [exec, execDeviceStateVersion, runVariant, hm, completeDecode, hu,
      readStateVersion, pRead_ok, pRead_error, except_bind_ok, except_bind_error, if_pos, if_neg, hk, kindLen,
      framePayload, BitVec.reduceToNat, Nat.reduceAdd] <;> rfl
  · simp only [hi, exec, execDeviceGetInfo, runVariant, hm, completeDecode, hu, if_true]
    simp [hk, kindLen, framePayload]
  · rcases (by omega : 24 ≤ win ∨ win < 8 ∨ (8 ≤ win ∧ win < 16) ∨ (16 ≤ win ∧ win < 24)) with c | c | c | c <;>
    simp (disch := omega) only [exec, execDeviceStateInfo, runVariant, hm, completeDecode, hu,
      readStateInfo, pRead_ok, pRead_error, except_bind_ok, except_bind_error, if_pos, if_neg, hk, kindLen,
      framePayload, BitVec.reduceToNat, Nat.reduceAdd] <;> rfl
  · have hb : win < 12 + 32 → pReadBytes input win 12 32 = .error ⟨48, 32⟩ := fun c => by rw [pReadBytes, if_pos c]
    rcases (by omega : 52 ≤ win ∨ win < 2 ∨ (2 ≤ win ∧ win < 4) ∨ (4 ≤ win ∧ win < 6) ∨ (6 ≤ win ∧ win < 8) ∨
      (8 ≤ win ∧ win < 10) ∨ (10 ≤ win ∧ win < 12) ∨ (12 ≤ win ∧ win < 44) ∨ (44 ≤ win ∧ win < 52)) with
      c | c | c | c | c | c | c | c | c <;>
    simp (disch := omega) only [exec, execLightState, runVariant, hm, completeDecode, hu,
      readLightState, pRead_ok, pRead_error, pReadBytes_ok, hb, except_bind_ok, except_bind_error, if_pos,
      if_neg, hk, kindLen, framePayload, BitVec.reduceToNat, Nat.reduceAdd] <;> rfl
  · have hk : tableKind h.kind = false := (tableKind_eq_false _).2 ⟨h1, h2, h3, h4, h5⟩
    have h0 : kindLen h.kind = 0 := by rw [kindLen_eq, if_neg h2, if_neg h4, if_neg h5]
    simp [hi, exec, execEmpty, runVariant, hm, completeDecode, hu, framePayload_empty _ _ hk, h0]

/-! The payload formats on the encoder. -/

theorem memWriteBytes_append (off : Nat) (a b : List Byte) (m : Mem) :
    memWriteBytes (off + a.length) b (memWriteBytes off a m) = memWriteBytes off (a ++ b) m := by
  induction a generalizing off m with
  | nil => rfl
  | cons x a ih =>
    simp only [memWriteBytes, List.cons_append, List.length_cons]
    rw [← ih, show off + (a.length + 1) = off + 1 + a.length by omega]

theorem memWriteBytes_then (off off' : Nat) (a b : List Byte) (m : Mem) (h : off' = off + a.length) :
    memWriteBytes off' b (memWriteBytes off a m) = memWriteBytes off (a ++ b) m := by
  subst h; exact memWriteBytes_append ..

/-- Completion of an ENCODE by the format of its payload (rules R160, R170 to R176, R184): the one lemma about the payload
formats on the encoder. -/
theorem exec_on_encoder (s : State) (e : EncSample) (out : Mem) (p : Payload) (hm : s.mover = .enc)
    (hu : s.encUnit = .inFlight ⟨e, .headerWritten out⟩) (hp : e.payload = some p) :
    exec p.variant s = .next (commitEncode (36 + p.len) (memWriteBytes 36 (payloadBytes p) out) s) := by
  cases p
  case lightState color dim power label tags =>
    have hl := label.length_eq
    simp (disch := simp [hl]) only [exec, Payload.variant, execLightState, runVariant, hm, completeEncode, hu, hp,
      if_true, writeLightState, Payload.len, pWrite, pWriteBytes, memWrite, memWriteBytes_then, payloadBytes,
      Nat.add_zero]
  all_goals
    simp (disch := simp) only [exec, Payload.variant, execDeviceGetVersion, execDeviceStateVersion, execDeviceGetInfo,
      execDeviceStateInfo, execEmpty, runVariant, hm, completeEncode, hu, hp, if_true, writeNoFields,
      writeStateVersion, writeStateInfo, Payload.len, pWrite, memWrite,
      memWriteBytes_then, payloadBytes, memWriteBytes, Nat.add_zero]

/-! The header writes. -/

/-- The protocol bitfield as a sum (rule R90). -/
theorem packProtocol_toNat (v : BitVec 16) (a t : Bool) (h : v.toNat < 4096) :
    (packProtocol v a t).toNat = v.toNat + (if a then 4096 else 0) + (if t then 8192 else 0) := by
  have h1 : ∀ x : BitVec 16, x.toNat < 4096 → x &&& 0x0FFF = x := by
    intro x hx
    apply BitVec.eq_of_toNat_eq
    rw [BitVec.toNat_and]
    exact (Nat.and_two_pow_sub_one_eq_mod x.toNat 12).trans (Nat.mod_eq_of_lt hx)
  have h2 : ∀ (x y : Nat) (i : Nat), x < 2 ^ i → x ||| 2 ^ i * y = x + 2 ^ i * y := by
    intro x y i hx; rw [Nat.or_comm, ← Nat.two_pow_add_eq_or_of_lt hx, Nat.add_comm]
  have e1 := h2 v.toNat 1 12 (by omega)
  have e2 := h2 v.toNat 2 12 (by omega)
  have e3 := h2 (v.toNat + 4096) 1 13 (by omega)
  simp only [Nat.reducePow, Nat.reduceMul] at e1 e2 e3
  unfold packProtocol
  rw [h1 v h]
  cases a <;> cases t <;> simp [BitVec.toNat_or, e1, e2, e3]

/-- The header writes of a well-formed request (rules R161 to R169). -/
theorem headerWrites_eq (e : EncSample) (p : Payload) (hv : e.version.toNat < 4096)
    (hp : p.variant.wellFormed = true) : headerWrites e p = Mem.ofBytes (headerBytes e p) := by
  have ht := e.target.length_eq
  have hs := e.site.length_eq
  have ha : (packAck e.acknowledge).toNat = if e.acknowledge then 1 else 0 := by
    unfold packAck; cases e.acknowledge <;> rfl
  rw [← List.nil_append (headerBytes e p), ← memWriteBytes_ofBytes [] _ 0 rfl, ofBytes_nil]
  simp (disch := simp [ht, hs]) only [headerWrites, writeKindTail, writeAtTime, writeAck, writeTargetSite,
    writeTransaction, writeProtocol, writeSize, memWrite, memWriteBytes_then, headerBytes,
    packProtocol_toNat _ _ _ hv, ha, len_eq_kindLen p hp, List.append_assoc]

theorem headerBytes_length (e : EncSample) (p : Payload) : (headerBytes e p).length = 36 := by
  simp [headerBytes, e.target.length_eq, e.site.length_eq]

theorem payloadBytes_length (p : Payload) : (payloadBytes p).length = p.len := by
  cases p
  case lightState color dim power label tags =>
    simp [payloadBytes, Payload.len, Payload.variant, payloadLen, label.length_eq]
  all_goals simp [payloadBytes, Payload.len, Payload.variant, payloadLen]

/-- What `illFormed` says (rule R180). -/
theorem illFormed_eq_false (e : EncSample) :
    illFormed e = false ↔
      e.version.toNat < 4096 ∧ ∃ p, e.payload = some p ∧ p.variant.wellFormed = true := by
  unfold illFormed
  cases hp : e.payload with
  | none => simp
  | some p => cases p <;> simp [Payload.variant, Instr.wellFormed]

/-- The transaction of a well-formed ENCODE request (rule R160). -/
theorem beginEncode_ok (e : EncSample) (p : Payload) (hp : e.payload = some p) (h : illFormed e = false) :
    beginEncode e = ⟨e, .headerWritten (Mem.ofBytes (headerBytes e p))⟩ := by
  obtain ⟨hv, q, hq, hw⟩ := (illFormed_eq_false e).1 h
  obtain rfl : q = p := by simpa [hp] using hq.symm
  simp [beginEncode, h, hp, headerWrites_eq e q hv hw]

/-- The transaction of an ill-formed ENCODE request (rule R180). -/
theorem beginEncode_illFormed (e : EncSample) (h : illFormed e = true) : beginEncode e = ⟨e, .illFormed⟩ := by
  simp [beginEncode, h]

/-- The transaction of a DECODE request with a whole header (rules R120, R124). -/
theorem beginDecode_ok (input : List Byte) (h : 36 ≤ input.length) :
    beginDecode input = ⟨input, 36, .payload (frameHeader input) (frameWindow input)⟩ := by
  simp [beginDecode, headerStage_ok input h, payloadWindow, frameWindow]

/-- The transaction of a DECODE request with a short header (rules R123, R193). -/
theorem beginDecode_short (input : List Byte) (h : input.length < 36) :
    beginDecode input = ⟨input, (shortField input.length).off, .raised (shortField input.length)⟩ := by
  simp [beginDecode, headerStage_error input h]

theorem beginDecode_input (input : List Byte) : (beginDecode input).input = input := by
  unfold beginDecode; split <;> rfl

theorem beginEncode_sample (e : EncSample) : (beginEncode e).sample = e := by
  unfold beginEncode; split <;> rfl

/-! The sampled encoder inputs. -/

/-- The payload inputs: what a tag samples is what the registers of its variant hold. -/
theorem samplePayload_eq_some (r : EncRegs) (p : Option Payload) :
    (∃ tag, r.ptag = .holds tag ∧ samplePayload r tag = some p) ↔ r.holdPayload p := by
  constructor
  · rintro ⟨tag, ht, h⟩
    have tag_cases : ∀ g : BitVec 3, g = 0 ∨ g = 1 ∨ g = 2 ∨ g = 3 ∨ g = 4 ∨ g = 5 ∨ g = 6 ∨ g = 7 := by decide
    rcases tag_cases tag with rfl | rfl | rfl | rfl | rfl | rfl | rfl | rfl <;>
      simp [samplePayload, Option.bind_eq_some_iff] at h
    · obtain ⟨k, hk, rfl⟩ := h; exact ⟨ht, hk⟩
    · subst h; exact ht
    · obtain ⟨_, h1, _, h2, _, h3, rfl⟩ := h; exact ⟨ht, h1, h2, h3⟩
    · subst h; exact ht
    · obtain ⟨_, h1, _, h2, _, h3, rfl⟩ := h; exact ⟨ht, h1, h2, h3⟩
    · obtain ⟨_, h1, _, h2, _, h3, _, h4, _, h5, _, h6, _, h7, _, h8, rfl⟩ := h
      exact ⟨ht, h1, h2, h3, h4, h5, h6, h7, h8⟩
    · subst h; exact .inl ht
    · subst h; exact .inr ht
  · intro h
    match p, h with
    | none, .inl h => exact ⟨6, h, rfl⟩
    | none, .inr h => exact ⟨7, h, rfl⟩
    | some (.empty _), ⟨h, h1⟩ => exact ⟨0, h, by simp [samplePayload, h1]⟩
    | some .deviceGetVersion, h => exact ⟨1, h, rfl⟩
    | some (.deviceStateVersion ..), ⟨h, h1, h2, h3⟩ => exact ⟨2, h, by simp [samplePayload, h1, h2, h3]⟩
    | some .deviceGetInfo, h => exact ⟨3, h, rfl⟩
    | some (.deviceStateInfo ..), ⟨h, h1, h2, h3⟩ => exact ⟨4, h, by simp [samplePayload, h1, h2, h3]⟩
    | some (.lightState ..), ⟨h, h1, h2, h3, h4, h5, h6, h7, h8⟩ =>
      exact ⟨5, h, by simp [samplePayload, h1, h2, h3, h4, h5, h6, h7, h8]⟩

/-- An ENCODE samples exactly the values that its inputs hold. -/
theorem sampleEncode_eq_some (r : EncRegs) (e : EncSample) : sampleEncode r = some e ↔ r.hold e := by
  simp only [EncRegs.hold, ← samplePayload_eq_some, sampleEncode, Option.pure_def, Option.bind_eq_bind,
    Option.bind_eq_some_iff, input_get?_eq_some, Option.some.injEq]
  constructor
  · rintro ⟨_, h1, _, h2, _, h3, _, h4, _, h5, _, h6, _, h7, tag, ht, _, hp, rfl⟩
    exact ⟨h1, h2, h3, h4, h5, h6, h7, tag, ht, hp⟩
  · rintro ⟨h1, h2, h3, h4, h5, h6, h7, tag, ht, hp⟩
    exact ⟨_, h1, _, h2, _, h3, _, h4, _, h5, _, h6, _, h7, tag, ht, _, hp, rfl⟩

theorem encodeReady_iff (s : State) (e : EncSample) :
    s.encodeReady e ↔ s.encUnit = .idle ∧ sampleEncode s.encIn = some e := by
  rw [State.encodeReady, sampleEncode_eq_some]

end Sys2Proof.Machine
end

