-- ==== Sys2Proof/Laws/PerInstr.lean ====
section
/-! SUPPORT. Statements made per instruction. WordReads: the decoder of table words reads an instruction back from the
number of its own word. -/

namespace Sys2Proof.Laws.WordReads

open Sys2Proof Sys2Proof.Machine

/-- The word of a well-formed instruction, numbered as the opcode table numbers its bits, decodes to that instruction. -/
def Statement (i : Instr) : Prop :=
  i.wellFormed = true → decodeTableWord (8 * i.format.bytes) i.code = some i

theorem deviceGetVersion : Statement .deviceGetVersion := fun _ => by decide

theorem deviceStateVersion : Statement .deviceStateVersion := fun _ => by decide

theorem deviceGetInfo : Statement .deviceGetInfo := fun _ => by decide

theorem deviceStateInfo : Statement .deviceStateInfo := fun _ => by decide

theorem lightState : Statement .lightState := fun _ => by decide

theorem empty (kind : BitVec 16) : Statement (.empty kind) := by
  intro h
  have hk : BitVec.ofNat 16 (leNat (leBytes 2 kind.toNat)) = kind := by rw [leNat_leBytes _ _ kind.isLt]; simp
  have hd : decodeKind kind = .empty kind := decodeKind_kind (.empty kind) h
  have h16 : ¬65536 ≤ kind.toNat := by have := kind.isLt; omega
  have h8 : ¬(16 ≤ 8 ∧ 0 < kind.toNat ∧ kind.toNat < 4) := by omega
  have hb : decodeBytes .kind16 (leBytes 2 kind.toNat) = .ok ([.empty kind], []) := by
    rw [← hd]; exact congrArg (fun k => Except.ok ([decodeKind k], [])) hk
  show decodeTableWord 16 kind.toNat = some (.empty kind)
  rw [decodeTableWord, if_neg h16, if_neg h8, hb]
  rfl

theorem decode : Statement .decode := fun _ => by decide

theorem encode : Statement .encode := fun _ => by decide

end Sys2Proof.Laws.WordReads
end

