-- ==== Sys2Proof/Tests/Slice0.lean ====
section
/-! SUPPORT. Tests of this model: well-formedness, instruction words, one step each from the vectors of 95_test_vectors.md,
and for every statement with hypotheses a state and operands that meet them. -/

namespace Sys2Proof.Tests

open Sys2Proof Sys2Proof.Machine

/-! Helpers. -/

/-- The next state of an outcome. -/
def nextOf : Host.Outcome State Fault Refusal → Option State
  | .next t => some t
  | .fault _ => none
  | .refused _ => none

/-- The fault of an outcome. -/
def faultOf : Host.Outcome State Fault Refusal → Option Fault
  | .next _ => none
  | .fault f => some f
  | .refused _ => none

/-- The refusal of an outcome. -/
def refusalOf : Host.Outcome State Fault Refusal → Option Refusal
  | .next _ => none
  | .fault _ => none
  | .refused r => some r

/-- The reset state with these bytes written to `DEC_IN` and their number to `DEC_LEN`. -/
def withInput (b : List Byte) : State :=
  { State.reset with decIn := memWriteBytes 0 b [], decLen := .holds b.length }

/-- The same with the DECODE of these bytes in flight. -/
def decoding (b : List Byte) : State := { withInput b with decUnit := .inFlight (beginDecode b) }

/-- The reset state with these encoder inputs. -/
def withEnc (r : EncRegs) : State := { State.reset with encIn := r }

/-- The reset state with an ENCODE of these inputs in flight, at the encoder's move. -/
def encoding (e : EncSample) : State := { State.reset with mover := .enc, encUnit := .inFlight (beginEncode e) }

/-- Frame B0: DeviceGetVersion (95_test_vectors.md). -/
def b0 : List Byte :=
  [0x24, 0x00, 0x00, 0x34, 0x00, 0x00, 0x00, 0x00, 0x00, 0x00, 0x00, 0x00, 0x00, 0x00, 0x00, 0x00,
   0x31, 0x6C, 0x69, 0x66, 0x78, 0x31, 0x00, 0x00, 0x00, 0x00, 0x00, 0x00, 0x00, 0x00, 0x00, 0x00,
   0x20, 0x00, 0x00, 0x00]

/-- Frame SV48: DeviceStateVersion (95_test_vectors.md). -/
def sv48 : List Byte :=
  [0x30, 0x00, 0x00, 0x24, 0x00, 0x00, 0x00, 0x00, 0x00, 0x00, 0x00, 0x00, 0x00, 0x00, 0x00, 0x00,
   0x00, 0x00, 0x00, 0x00, 0x00, 0x00, 0x00, 0x00, 0x00, 0x00, 0x00, 0x00, 0x00, 0x00, 0x00, 0x00,
   0x21, 0x00, 0x00, 0x00, 0x01, 0x00, 0x00, 0x00, 0x16, 0x00, 0x00, 0x00, 0x02, 0x00, 0x01, 0x00]

/-- Frame SI60: DeviceStateInfo (95_test_vectors.md). -/
def si60 : List Byte :=
  [0x3C, 0x00, 0x00, 0x00, 0x00, 0x00, 0x00, 0x00, 0x00, 0x00, 0x00, 0x00, 0x00, 0x00, 0x00, 0x00,
   0x00, 0x00, 0x00, 0x00, 0x00, 0x00, 0x00, 0x00, 0x00, 0x00, 0x00, 0x00, 0x00, 0x00, 0x00, 0x00,
   0x23, 0x00, 0x00, 0x00, 0x08, 0x07, 0x06, 0x05, 0x04, 0x03, 0x02, 0x01, 0x00, 0x10, 0x00, 0x00,
   0x00, 0x00, 0x00, 0x00, 0xFF, 0xFF, 0xFF, 0xFF, 0xFF, 0xFF, 0xFF, 0xFF]

/-- Frame LS88: LightState (95_test_vectors.md). -/
def ls88 : List Byte :=
  [0x58, 0x00, 0x00, 0x04, 0x00, 0x00, 0x00, 0x00, 0xD0, 0x73, 0xD5, 0x01, 0x02, 0x03, 0x00, 0x00,
   0x31, 0x6C, 0x69, 0x66, 0x78, 0x31, 0x01, 0x00, 0x08, 0x07, 0x06, 0x05, 0x04, 0x03, 0x02, 0x01,
   0x6B, 0x00, 0x00, 0x00, 0xFF, 0xFF, 0x00, 0x80, 0x01, 0x00, 0xAC, 0x0D, 0xFF, 0xFF, 0xFF, 0xFF,
   0x4B, 0x69, 0x74, 0x63, 0x68, 0x65, 0x6E, 0x00, 0x00, 0x00, 0x00, 0x00, 0x00, 0x00, 0x00, 0x00,
   0x00, 0x00, 0x00, 0x00, 0x00, 0x00, 0x00, 0x00, 0x00, 0x00, 0x00, 0x00, 0x00, 0x00, 0x00, 0x00,
   0x01, 0x00, 0x00, 0x00, 0x00, 0x00, 0x00, 0x80]

/-- Frame GI40: DeviceGetInfo with four window bytes (95_test_vectors.md). -/
def gi40 : List Byte :=
  [0x28, 0x00, 0x00, 0x34, 0x00, 0x00, 0x00, 0x00, 0x00, 0x00, 0x00, 0x00, 0x00, 0x00, 0x00, 0x00,
   0x31, 0x6C, 0x69, 0x66, 0x78, 0x31, 0x00, 0x00, 0x00, 0x00, 0x00, 0x00, 0x00, 0x00, 0x00, 0x00,
   0x22, 0x00, 0x00, 0x00, 0xAA, 0xBB, 0xCC, 0xDD]

/-- Encoder inputs that give frame B0 (vector V-E1). -/
def b0Sample : EncSample where
  version := 1024
  addressable := true
  tagged := true
  target := Bytes.zero 8
  site := ⟨[0x31, 0x6C, 0x69, 0x66, 0x78, 0x31], rfl⟩
  acknowledge := false
  atTime := 0
  payload := some .deviceGetVersion

/-- The label of frame LS88: "Kitchen" and 25 zeros. -/
def kitchen : Bytes 32 := ⟨[0x4B, 0x69, 0x74, 0x63, 0x68, 0x65, 0x6E] ++ List.replicate 25 0, rfl⟩

/-- The payload of frame LS88. -/
def lsPayload : Payload :=
  .lightState ⟨0xFFFF, 0x8000, 1, 3500⟩ 0xFFFF 0xFFFF kitchen 0x8000000000000001

/-- Encoder inputs that give frame LS88 (vector V-F3). -/
def lsSample : EncSample where
  version := 1024
  addressable := false
  tagged := false
  target := ⟨[0xD0, 0x73, 0xD5, 0x01, 0x02, 0x03, 0x00, 0x00], rfl⟩
  site := ⟨[0x31, 0x6C, 0x69, 0x66, 0x78, 0x31], rfl⟩
  acknowledge := true
  atTime := 0x0102030405060708
  payload := some lsPayload

/-- The message of frame LS88. -/
def lsMessage : Message := ⟨⟨88, 1024, false, false, lsSample.target, lsSample.site, true, lsSample.atTime, 107⟩, lsPayload⟩

/-- The registers of `lsSample`. -/
def lsRegs : EncRegs :=
  { zeroEncIn with
    version := .holds 1024, target := .holds lsSample.target, site := .holds lsSample.site, ack := .holds true,
    atTime := .holds lsSample.atTime, ptag := .holds 5, pHue := .holds 0xFFFF, pSat := .holds 0x8000, pBri := .holds 1,
    pKelvin := .holds 3500, pDim := .holds 0xFFFF, pPower := .holds 0xFFFF, pLabel := .holds kitchen,
    pTags := .holds 0x8000000000000001 }

/-- Zero inputs with a payload. -/
def zeroSample (p : Option Payload) : EncSample where
  version := 0
  addressable := false
  tagged := false
  target := Bytes.zero 8
  site := Bytes.zero 6
  acknowledge := false
  atTime := 0
  payload := p

/-! Well-formedness: one ill-formed term for each kind of the table that an Empty may not carry, and neighbours it may. -/

theorem test_illformed_32 : Instr.wellFormed (.empty 32) = false := by decide
theorem test_illformed_33 : Instr.wellFormed (.empty 33) = false := by decide
theorem test_illformed_34 : Instr.wellFormed (.empty 34) = false := by decide
theorem test_illformed_35 : Instr.wellFormed (.empty 35) = false := by decide
theorem test_illformed_107 : Instr.wellFormed (.empty 107) = false := by decide
theorem test_wellformed_neighbours :
    ([31, 36, 106, 108, 0, 0xFFFF].all fun k => Instr.wellFormed (.empty k)) = true := by decide

/-! Words of rules R95 and R101, written out from the tables, and what the words decode to; what is refused, by name. -/

theorem test_word_deviceGetVersion : firstInstr (decodeBytes .kind16 [0x20, 0x00]) = some .deviceGetVersion := by decide
theorem test_word_deviceStateVersion :
    firstInstr (decodeBytes .kind16 [0x21, 0x00]) = some .deviceStateVersion := by decide
theorem test_word_deviceGetInfo : firstInstr (decodeBytes .kind16 [0x22, 0x00]) = some .deviceGetInfo := by decide
theorem test_word_deviceStateInfo : firstInstr (decodeBytes .kind16 [0x23, 0x00]) = some .deviceStateInfo := by decide
theorem test_word_lightState : firstInstr (decodeBytes .kind16 [0x6B, 0x00]) = some .lightState := by decide
theorem test_word_empty : firstInstr (decodeBytes .kind16 [0x00, 0x20]) = some (.empty 8192) := by decide
theorem test_word_decode : firstInstr (decodeBytes .req [0x01]) = some .decode := by decide
theorem test_word_encode : firstInstr (decodeBytes .req [0x02]) = some .encode := by decide
theorem test_word_both : decodeBytes .req [0x03] = .ok ([.decode, .encode], []) := by rfl
theorem test_word_no_request : decodeBytes .req [0x00] = .error .noRequest := by rfl
theorem test_word_not_a_request_bit : decodeBytes .req [0x04] = .error .notARequestBit := by rfl
theorem test_word_too_short : decodeBytes .kind16 [0x20] = .error .tooShort := by rfl
theorem test_encode_words :
    encodeInstr .lightState = [0x6B, 0x00] ∧ encodeInstr (.empty 8192) = [0x00, 0x20] ∧ encodeInstr .encode = [0x02] := by
  decide

/-! Every row's word read by `decodeTableWord`, and the first step after reset runs it. -/

theorem test_table_words :
    [decodeTableWord 16 0x20, decodeTableWord 16 0x21, decodeTableWord 16 0x22, decodeTableWord 16 0x23,
      decodeTableWord 16 0x6B, decodeTableWord 8 0, decodeTableWord 8 1, decodeTableWord 8 2] =
    [some .deviceGetVersion, some .deviceStateVersion, some .deviceGetInfo, some .deviceStateInfo, some .lightState,
      some (.empty 0), some .decode, some .encode] := by decide
theorem test_first_step_deviceGetVersion :
    (nextOf (step (State.reset.withFetchWord 16 0x20))).map (·.decRegs.ptag) = some 1 := by decide
theorem test_first_step_deviceStateVersion :
    (nextOf (step (State.reset.withFetchWord 16 0x21))).map (·.decRegs.ptag) = some 2 := by decide
theorem test_first_step_deviceGetInfo :
    (nextOf (step (State.reset.withFetchWord 16 0x22))).map (·.decRegs.ptag) = some 3 := by decide
theorem test_first_step_deviceStateInfo :
    (nextOf (step (State.reset.withFetchWord 16 0x23))).map (·.decRegs.ptag) = some 4 := by decide
theorem test_first_step_lightState :
    (nextOf (step (State.reset.withFetchWord 16 0x6B))).map (·.decRegs.ptag) = some 5 := by decide
theorem test_first_step_empty :
    (nextOf (step (State.reset.withFetchWord 8 0))).map (·.decRegs.ptag) = some 0 := by decide
theorem test_first_step_decode :
    (nextOf (step (State.reset.withFetchWord 8 1))).map (·.decBusy) = some true := by decide
theorem test_first_step_encode :
    (nextOf (step (State.reset.withFetchWord 8 2))).map (·.encBusy) = some true := by decide

/-! One step each, expected values from 95_test_vectors.md. -/

/-- Vector V-H1, completion. -/
theorem test_deviceGetVersion_decodes :
    (nextOf (exec .deviceGetVersion (decoding b0))).map (fun t => (t.decRegs.version, t.decRegs.site, t.decRegs.winLen)) =
      some (1024, b0Sample.site, 0) := by decide

/-- Vector V-E1, completion. -/
theorem test_deviceGetVersion_encodes :
    (nextOf (exec .deviceGetVersion (encoding b0Sample))).bind (fun t => t.encOut.readRange 0 36) = some b0 := by decide

/-- Vector V-P1. -/
theorem test_deviceStateVersion_decodes :
    (nextOf (exec .deviceStateVersion (decoding sv48))).map
      (fun t => (t.decRegs.pVendor, t.decRegs.pProduct, t.decRegs.pVersion)) =
      some (1, 0x16, 0x00010002) := by decide

/-- Vector V-P2: one byte of window too few. -/
theorem test_deviceStateVersion_truncated :
    (nextOf (exec .deviceStateVersion (decoding (0x2F :: sv48.tail)))).map
      (fun t => (t.decStatus, faultOf (hostReadReg (.dec .size) t))) = some (2, some .unspecifiedRead) := by decide

/-- Vector V-P13. -/
theorem test_deviceGetInfo_decodes :
    (nextOf (exec .deviceGetInfo (decoding gi40))).map (fun t => (t.decStatus, t.decRegs.ptag, t.decRegs.winLen)) =
      some (1, 3, 4) := by decide

/-- Vector V-E4. -/
theorem test_deviceGetInfo_encodes :
    (nextOf (exec .deviceGetInfo (encoding (zeroSample (some .deviceGetInfo))))).bind
      (fun t => t.encOut.readRange 0 36) = some ([0x24] ++ List.replicate 31 0 ++ [0x22, 0, 0, 0]) := by decide

/-- Vector V-P11. -/
theorem test_deviceStateInfo_decodes :
    (nextOf (exec .deviceStateInfo (decoding si60))).map
      (fun t => (t.decRegs.pTime, t.decRegs.pUptime, t.decRegs.pDowntime)) =
      some (0x0102030405060708, 0x1000, 0xFFFFFFFFFFFFFFFF) := by decide

/-- Vector V-F2. -/
theorem test_deviceStateInfo_encodes :
    (nextOf (exec .deviceStateInfo (encoding (zeroSample (some
      (.deviceStateInfo 0x0102030405060708 0x1000 0xFFFFFFFFFFFFFFFF)))))).bind (fun t => t.encOut.readRange 0 60) =
      some si60 := by decide

/-- Vector V-P5. -/
theorem test_lightState_decodes :
    (nextOf (exec .lightState (decoding ls88))).map (fun t => t.decRegs) =
      some (DecRegs.reset.withResult lsMessage.header 52 lsPayload) := by decide

/-- Vector V-F3. -/
theorem test_lightState_encodes :
    (nextOf (exec .lightState (encoding lsSample))).bind (fun t => t.encOut.readRange 0 88) = some ls88 := by decide +kernel

/-- Vector V-K12: the high byte of the kind counts. -/
theorem test_empty_decodes :
    (nextOf (exec (.empty 363) (decoding (b0.take 32 ++ [0x6B, 0x01, 0, 0])))).map
      (fun t => (t.decStatus, t.decRegs.ptag, t.decRegs.kind)) = some (1, 0, 363) := by decide

/-- Vector V-E2. -/
theorem test_empty_encodes :
    (nextOf (exec (.empty 103) (encoding { b0Sample with payload := some (.empty 103) }))).bind
      (fun t => t.encOut.readRange 32 4) = some [0x67, 0, 0, 0] := by decide

/-- Vector V-S2, request: 20 bytes are no header. -/
theorem test_decode_short :
    (nextOf (exec .decode (withInput (b0.take 20)))).map (·.decUnit) =
      some (.inFlight ⟨b0.take 20, 16, .raised ⟨16, 6⟩⟩) := by decide

/-- Rule R222: nothing was written since reset. -/
theorem test_decode_unwritten : faultOf (exec .decode State.reset) = some .inputNotWritten := by decide

/-- Vectors V-I1, V-I2. -/
theorem test_encode_version_limit :
    [4096, 4095].map (fun v => (nextOf (transact .encode .enc
      (withEnc { zeroEncIn with version := .holds v, ptag := .holds 3 }))).map (·.encStatus)) = [some 2, some 1] := by
  decide
theorem test_encode_samples :
    (nextOf (exec .encode (withEnc lsRegs))).map (·.encUnit) = some (.inFlight (beginEncode lsSample)) := by decide

/-- Vectors V-P8, V-P9: `dim` is read as signed. -/
theorem test_dim_read :
    (nextOf (hostReadReg (.dec .pDim)
      { State.reset with decStatus := 1, decRegs := { DecRegs.reset with ptag := 5, pDim := 0x8000 } })).map (·.hostRead) =
      some (some (.signed (-32768))) := by decide

/-! Witnesses: for every statement with hypotheses, a state and operands that meet them together. -/

/-- The inputs of `withInput b` hold `b`. -/
theorem ready_withInput (b : List Byte) : (withInput b).decodeReady b := by
  refine ⟨rfl, rfl, fun i hi => ?_⟩
  simp only [withInput]
  rw [read_memWriteBytes, if_pos (by omega), Nat.sub_zero]

/-- The inputs of `withEnc r` are what `r` samples to. -/
theorem ready_of_sample {r : EncRegs} {e : EncSample} (h : sampleEncode r = some e) : (withEnc r).encodeReady e :=
  (encodeReady_iff ..).2 ⟨rfl, h⟩

/-- The inputs of `withEnc lsRegs` are `lsSample`. -/
theorem ready_withEnc : (withEnc lsRegs).encodeReady lsSample := ready_of_sample rfl

/-- Frame B0's DECODE is at its payload stage. -/
theorem payload_b0 : (decoding b0).atDecodePayload b0 (frameHeader b0) 0 :=
  ⟨rfl, ⟨36, rfl⟩, by decide, by decide⟩

theorem payload_sv48 : (decoding sv48).atDecodePayload sv48 (frameHeader sv48) 12 :=
  ⟨rfl, ⟨36, rfl⟩, by decide, by decide⟩

/-- Vector V-K2: kind 33 with an empty window. -/
theorem payload_short_sv :
    (decoding (b0.take 32 ++ [0x21, 0, 0, 0])).atDecodePayload (b0.take 32 ++ [0x21, 0, 0, 0])
      (frameHeader (b0.take 32 ++ [0x21, 0, 0, 0])) 0 :=
  ⟨rfl, ⟨36, rfl⟩, by decide, by decide⟩

/-- A state with both statuses OK, frame B0 in the encoder's outputs and its message in the decoder's results. -/
def bothOk : State :=
  { State.reset with
    decStatus := 1, decRegs := DecRegs.reset.withResult (frameHeader b0) 0 .deviceGetVersion, encStatus := 1,
    encOut := Mem.ofBytes b0, encLen := 36 }

theorem bothOk_inv : bothOk.Inv where
  decIn_wf := rfl
  decIn_below := rfl
  decLen_le := Nat.zero_le _
  decStatus_legal := by decide
  encStatus_legal := by decide
  dec_ok := fun _ => ⟨⟨frameHeader b0, .deviceGetVersion⟩, 0, ⟨rfl, rfl, rfl, rfl, rfl, rfl, rfl, rfl, rfl, rfl, rfl⟩, trivial, by decide,
    by decide, by decide⟩
  encOut_wf := by decide
  encOut_below := by decide
  enc_ok := fun _ => ⟨b0, rfl, rfl, by decide⟩
  dec_flight := fun t h => by cases h
  enc_flight := fun t h => by cases h

/-- A state with both statuses at the error code. -/
def bothError : State := { State.reset with decStatus := 2, encStatus := 2 }

theorem bothError_inv : bothError.Inv where
  decIn_wf := rfl
  decIn_below := rfl
  decLen_le := Nat.zero_le _
  decStatus_legal := by decide
  encStatus_legal := by decide
  dec_ok := fun h => absurd h (by decide)
  encOut_wf := rfl
  encOut_below := rfl
  enc_ok := fun h => absurd h (by decide)
  dec_flight := fun t h => by cases h
  enc_flight := fun t h => by cases h

theorem witness_ResetLeavesIdleAndUnspecified :
    faultOf (hostReadReg (.encOut 87) State.reset) = some .unspecifiedRead ∧
    faultOf (hostReadReg (.encOut 88) State.reset) = some .outsideBuffer := by decide

theorem witness_KindRouting : (103 : BitVec 16) ∉ [32, 33, 34, 35, 107] ∧ (36 : BitVec 16) ∉ [32, 33, 34, 35, 107] := by
  decide

theorem witness_DecodeOfEncode : Instr.wellFormed (.empty 103) = true ∧ Instr.wellFormed .lightState = true := by decide

/-- One host action of each kind. -/
def hostActSamples : List HostAct :=
  [.writeDecIn 0 1, .writeDecLen 36, .writeEnc (.ptag 1), .request 1, .read .decBusy, .copy, .reset]

/-- Each clause: a fetched instruction with an agenda entry and without, both units' fetches, a request, and, beside them, a
raised error, an idle unit, and an entry of each kind of host action. -/
theorem witness_StepRunsDecodedInstruction :
    (∃ s : State, s.agenda = [.unit .dec] ∧ fetch .dec s = .run .deviceGetVersion) ∧
    (∃ s : State, s.agenda = [] ∧ fetch (drainUnit s) s = .run .deviceGetVersion) ∧
    ((decoding b0).decUnit = .inFlight (beginDecode b0) ∧ 36 ≤ b0.length ∧
      decodeBytes .kind16 (b0.drop 32) = .ok ([.deviceGetVersion], [0, 0])) ∧
    ((encoding lsSample).encUnit = .inFlight (beginEncode lsSample) ∧ lsSample.payload = some lsPayload ∧
      illFormed lsSample = false) ∧
    (∃ s : State, s.agenda = [.host (.request (BitVec.ofNat 2 (3 : Byte).toNat))] ∧
      decodeBytes .req [3] = .ok ([.decode, .encode], [])) ∧
    (∃ s : State, s.agenda = [.unit .dec] ∧ fetch .dec s = .raise) ∧
    (∃ s : State, s.agenda = [.unit .enc] ∧ fetch .enc s = .idle) ∧
    (∃ s : State, s.agenda = [] ∧ fetch (drainUnit s) s = .raise) ∧
    (State.reset.agenda = [] ∧ fetch (drainUnit State.reset) State.reset = .idle) ∧
    ∀ a ∈ hostActSamples, ∃ s : State, s.agenda = [.host a] :=
  ⟨⟨{ decoding b0 with agenda := [.unit .dec] }, rfl, rfl⟩, ⟨decoding b0, rfl, rfl⟩, ⟨rfl, by decide, rfl⟩,
    ⟨rfl, rfl, by decide⟩, ⟨{ State.reset with agenda := [.host (.request 3)] }, rfl, rfl⟩,
    ⟨{ decoding (b0.take 35) with agenda := [.unit .dec] }, rfl, rfl⟩,
    ⟨{ State.reset with agenda := [.unit .enc] }, rfl, rfl⟩, ⟨decoding (b0.take 35), rfl, rfl⟩, ⟨rfl, rfl⟩,
    fun a _ => ⟨{ State.reset with agenda := [.host a] }, rfl⟩⟩

/-- The requests of one cycle: both units ready, each unit busy while the other is ready, and a DECODE, and an ENCODE beside a
ready decoder, whose inputs were never written. -/
theorem witness_RequestVectorStartsUnits :
    (∃ s b e, State.decodeReady s b ∧ s.encodeReady e) ∧ (decoding b0).decBusy = true ∧
    (encoding lsSample).encBusy = true ∧ (∃ s b, State.encBusy s = true ∧ s.decodeReady b) ∧
    exec .decode (encoding lsSample) = .fault .inputNotWritten ∧
    exec .encode (withInput b0) = .fault .inputNotWritten ∧ (withInput b0).decodeReady b0 :=
  ⟨⟨{ withInput b0 with encIn := lsRegs }, b0, lsSample, ready_withInput b0, (encodeReady_iff ..).2 ⟨rfl, rfl⟩⟩, rfl, rfl,
    ⟨{ withInput b0 with encUnit := .inFlight (beginEncode lsSample) }, b0, rfl, ready_withInput b0⟩, rfl, rfl,
    ready_withInput b0⟩

/-- Whole headers from 36 bytes on, short ones down to none. -/
theorem witness_DecodeRequestCompletes :
    ((withInput b0).decodeReady b0 ∧ 36 ≤ b0.length) ∧
    ((withInput (b0.take 35)).decodeReady (b0.take 35) ∧ (b0.take 35).length < 36) ∧
    ((withInput []).decodeReady [] ∧ ([] : List Byte).length < 36) :=
  ⟨⟨ready_withInput _, by decide⟩, ⟨ready_withInput _, by decide⟩, ready_withInput _, by decide⟩

theorem witness_HeaderStageTruncation :
    (∃ e, headerStage (b0.take 35) = .error e) ∧ (b0.take 35).length < 36 ∧ 36 ≤ b0.length :=
  ⟨⟨_, rfl⟩, by decide, by decide⟩

/-- The lengths at which the reads and the cursor of rules R110 to R112 change. -/
theorem witness_SizeAndProtocolFields :
    (b0.take 1).length < 2 ∧ 2 ≤ (b0.take 2).length ∧ (b0.take 3).length < 4 ∧ 4 ≤ (b0.take 4).length ∧
    (b0.take 7).length < 8 ∧ headerStage b0 = .ok (frameHeader b0) := ⟨by decide, by decide, by decide, by decide, by decide, rfl⟩

/-- The lengths at which the reads and the cursor of rules R113 to R115 change. -/
theorem witness_TransactionTargetSiteFields :
    (b0.take 7).length < 8 ∧ 8 ≤ (b0.take 8).length ∧ (b0.take 15).length < 16 ∧ 16 ≤ (b0.take 16).length ∧
    (b0.take 21).length < 22 ∧ 22 ≤ (b0.take 22).length ∧ (b0.take 23).length < 24 ∧
    headerStage b0 = .ok (frameHeader b0) :=
  ⟨by decide, by decide, by decide, by decide, by decide, by decide, by decide, rfl⟩

/-- The lengths at which the reads and the cursor of rules R116 to R119 change. -/
theorem witness_AckTimeKindFields :
    (b0.take 23).length < 24 ∧ 24 ≤ (b0.take 24).length ∧ (b0.take 31).length < 32 ∧ 32 ≤ (b0.take 32).length ∧
    (b0.take 33).length < 34 ∧ 34 ≤ (b0.take 34).length ∧ (b0.take 35).length < 36 ∧ 36 ≤ b0.length ∧
    headerStage b0 = .ok (frameHeader b0) :=
  ⟨by decide, by decide, by decide, by decide, by decide, by decide, by decide, by decide, rfl⟩

theorem witness_LittleEndianReadsAndWrites : 24 + 8 ≤ b0.length ∧ 258 < 256 ^ 2 ∧ 1 < 2 := by decide

/-- Vectors V-H1 and V-H7: frames that differ in the transaction field only. -/
theorem witness_DiscardedWireContent :
    (withInput b0).decodeReady b0 ∧
    (withInput (b0.take 4 ++ [0xDE, 0xAD, 0xBE, 0xEF] ++ b0.drop 8)).decodeReady
      (b0.take 4 ++ [0xDE, 0xAD, 0xBE, 0xEF] ++ b0.drop 8) ∧
    sameKept b0 (b0.take 4 ++ [0xDE, 0xAD, 0xBE, 0xEF] ++ b0.drop 8) ∧ (withEnc lsRegs).encodeReady lsSample := by
  refine ⟨ready_withInput _, ready_withInput _, fun i => ?_, ready_withEnc⟩
  have h : ∀ i, i < 36 → b0[i]?.map (· &&& keptBits i) =
      (b0.take 4 ++ [0xDE, 0xAD, 0xBE, 0xEF] ++ b0.drop 8)[i]?.map (· &&& keptBits i) := by decide
  by_cases hi : i < 36
  · exact h i hi
  · rw [List.getElem?_eq_none (show b0.length ≤ i by simp [b0]; omega),
      List.getElem?_eq_none (by simp [b0]; omega)]

/-- The four cases of rule R126: vectors V-H1, V-W2, V-W5 and V-W3. -/
theorem witness_SizeAgainstLength :
    ((withInput b0).decodeReady b0 ∧ 36 ≤ b0.length ∧ (frameHeader b0).size.toNat = b0.length) ∧
    ((withInput (b0 ++ List.replicate 52 0)).decodeReady (b0 ++ List.replicate 52 0) ∧
      (frameHeader (b0 ++ List.replicate 52 0)).size.toNat < (b0 ++ List.replicate 52 (0 : Byte)).length ∧
      36 ≤ (frameHeader (b0 ++ List.replicate 52 0)).size.toNat) ∧
    ((withInput (0x64 :: b0.tail ++ List.replicate 4 0)).decodeReady (0x64 :: b0.tail ++ List.replicate 4 0) ∧
      (0x64 :: b0.tail ++ List.replicate 4 (0 : Byte)).length <
        (frameHeader (0x64 :: b0.tail ++ List.replicate 4 0)).size.toNat) ∧
    ((withInput (0x23 :: b0.tail)).decodeReady (0x23 :: b0.tail) ∧ (frameHeader (0x23 :: b0.tail)).size.toNat < 36) :=
  ⟨⟨ready_withInput _, by decide, by decide⟩, ⟨ready_withInput _, by decide, by decide⟩,
    ⟨ready_withInput _, by decide⟩, ready_withInput _, by decide⟩

theorem witness_DecodeRefinesCodec : (withInput b0).decodeReady b0 := ready_withInput b0

/-- Two inputs of 89 bytes that differ in the last one. -/
theorem witness_DecodeIsDeterministic :
    (withInput (ls88 ++ [0])).decodeReady (ls88 ++ [0]) ∧ (withInput (ls88 ++ [1])).decodeReady (ls88 ++ [1]) ∧
    (ls88 ++ [(0 : Byte)]).length = (ls88 ++ [(1 : Byte)]).length ∧
    (ls88 ++ [(0 : Byte)]).take 88 = (ls88 ++ [(1 : Byte)]).take 88 :=
  ⟨ready_withInput _, ready_withInput _, rfl, rfl⟩

theorem witness_TruncatedInputCondition : (withInput (b0.take 35)).decodeReady (b0.take 35) := ready_withInput _

theorem witness_RaiseEffect :
    (decoding (b0.take 20)).decUnit = .inFlight ⟨b0.take 20, 16, .raised ⟨16, 6⟩⟩ ∧
    (∃ s b h, State.atDecodePayload s b h 0 ∧ 0 < payloadLen (decodeKind h.kind)) ∧
    (encoding (zeroSample none)).encUnit = .inFlight ⟨zeroSample none, .illFormed⟩ ∧
    ((b0.take 35).length = (ls88.take 35).length ∧ (b0.take 35).length < 36) ∧
    36 + 11 ≤ (sv48.take 47).length ∧ 36 + 23 ≤ (si60.take 59).length ∧ 36 + 51 ≤ (ls88.take 87).length ∧
    bothError.decUnit = .idle ∧ bothError.decStatus = 2 ∧ bothError.encUnit = .idle ∧ bothError.encStatus = 2 :=
  ⟨rfl, ⟨_, _, _, payload_short_sv, by decide⟩, rfl, by decide, by decide, by decide, by decide, rfl, rfl, rfl, rfl⟩

theorem witness_FieldlessFormatsDecode :
    ((decoding b0).mover = .dec ∧ (decoding b0).decUnit = .inFlight ⟨b0, 36, .payload (frameHeader b0) 0⟩ ∧
      (frameHeader b0).kind = 32) ∧
    ((decoding gi40).decUnit = .inFlight ⟨gi40, 36, .payload (frameHeader gi40) 4⟩ ∧ (frameHeader gi40).kind = 34) ∧
    (frameHeader (b0.take 32 ++ [0x67, 0, 0, 0])).kind ∉ [32, 33, 34, 35, 107] :=
  ⟨⟨rfl, rfl, by decide⟩, ⟨rfl, by decide⟩, by decide⟩

/-- The window lengths 12 and 0 of kind 33. -/
theorem witness_StateVersionDecodes :
    ((decoding sv48).atDecodePayload sv48 (frameHeader sv48) 12 ∧ (frameHeader sv48).kind = 33) ∧
    ∃ s b h, State.atDecodePayload s b h 0 ∧ h.kind = 33 :=
  ⟨⟨payload_sv48, by decide⟩, ⟨_, _, _, payload_short_sv, by decide⟩⟩

/-- The window lengths 24 and 23 of kind 35. -/
theorem witness_StateInfoDecodes :
    ((decoding si60).atDecodePayload si60 (frameHeader si60) 24 ∧ (frameHeader si60).kind = 35) ∧
    (decoding (si60.take 59)).atDecodePayload (si60.take 59) (frameHeader (si60.take 59)) 23 :=
  ⟨⟨⟨rfl, ⟨36, rfl⟩, by decide, by decide⟩, by decide⟩, rfl, ⟨36, rfl⟩, by decide, by decide⟩

/-- The window lengths 52 and 51 of kind 107. -/
theorem witness_LightStateDecodes :
    ((decoding ls88).atDecodePayload ls88 (frameHeader ls88) 52 ∧ (frameHeader ls88).kind = 107) ∧
    (decoding (ls88.take 87)).atDecodePayload (ls88.take 87) (frameHeader (ls88.take 87)) 51 :=
  ⟨⟨⟨rfl, ⟨36, rfl⟩, by decide, by decide⟩, by decide⟩, rfl, ⟨36, rfl⟩, by decide, by decide⟩

/-- Both sides of the sign boundary of rule R147. -/
theorem witness_DimIsSigned :
    ((decoding ls88).atDecodePayload ls88 (frameHeader ls88) 52 ∧ (frameHeader ls88).kind = 107) ∧
    (∃ s : State, s.decUnit = .idle ∧ s.decStatus = 1 ∧ s.decRegs.ptag = 5 ∧ s.decRegs.pDim = 0x7FFF) ∧
    ∃ s : State, s.decUnit = .idle ∧ s.decStatus = 1 ∧ s.decRegs.ptag = 5 ∧ s.decRegs.pDim = 0x8000 :=
  ⟨witness_LightStateDecodes.1,
    ⟨{ State.reset with decStatus := 1, decRegs := { DecRegs.reset with ptag := 5, pDim := 0x7FFF } }, rfl, rfl, rfl, rfl⟩,
    ⟨{ State.reset with decStatus := 1, decRegs := { DecRegs.reset with ptag := 5, pDim := 0x8000 } }, rfl, rfl, rfl, rfl⟩⟩

/-- Vector V-P13 with two contents of its window. -/
theorem witness_ExcessWindowBytesUnread :
    (decoding gi40).atDecodePayload gi40 (frameHeader gi40) 4 ∧
    (decoding (gi40.take 36 ++ [1, 2, 3, 4])).atDecodePayload (gi40.take 36 ++ [1, 2, 3, 4]) (frameHeader gi40) 4 ∧
    payloadLen (decodeKind (frameHeader gi40).kind) ≤ 4 ∧
    gi40.take (36 + payloadLen (decodeKind (frameHeader gi40).kind)) =
      (gi40.take 36 ++ [1, 2, 3, 4]).take (36 + payloadLen (decodeKind (frameHeader gi40).kind)) :=
  ⟨⟨rfl, ⟨36, rfl⟩, by decide, by decide⟩, ⟨rfl, ⟨36, rfl⟩, by decide, by decide⟩, by decide, by decide⟩

/-- A well-formed and an ill-formed request, and one that is answered with a next state. -/
theorem witness_EncodeRequestCompletes :
    ((withEnc lsRegs).encodeReady lsSample ∧ illFormed lsSample = false) ∧
    ((withEnc { zeroEncIn with ptag := .holds 6 }).encodeReady (zeroSample none) ∧ illFormed (zeroSample none) = true) ∧
    ∃ t, exec .encode (withEnc lsRegs) = .next t :=
  ⟨⟨ready_withEnc, by decide⟩, ⟨ready_of_sample rfl, by decide⟩, _, rfl⟩

theorem witness_HeaderFieldWrites : lsSample.payload = some lsPayload ∧ illFormed lsSample = false := ⟨rfl, by decide⟩

/-- The conditions of rule R180 at their boundaries: versions 4096 and 4095, tags 7 and 5, kinds 33 and 36. -/
theorem witness_IllFormedCondition :
    (withEnc { zeroEncIn with version := .holds 4096, ptag := .holds 3 }).encodeReady
      { zeroSample (some .deviceGetInfo) with version := 4096 } ∧
    (withEnc { zeroEncIn with version := .holds 4095, ptag := .holds 3 }).encodeReady
      { zeroSample (some .deviceGetInfo) with version := 4095 } ∧
    (withEnc { zeroEncIn with ptag := .holds 7 }).encodeReady (zeroSample none) ∧
    (withEnc { zeroEncIn with emptyKind := .holds 33 }).encodeReady (zeroSample (some (.empty 33))) ∧
    (withEnc { zeroEncIn with emptyKind := .holds 36 }).encodeReady (zeroSample (some (.empty 36))) :=
  ⟨ready_of_sample rfl, ready_of_sample rfl, ready_of_sample rfl, ready_of_sample rfl, ready_of_sample rfl⟩

theorem witness_FieldlessFormatsEncode :
    (∃ s e out, State.atEncodePayload s e .deviceGetVersion out) ∧
    (∃ s e out, State.atEncodePayload s e .deviceGetInfo out) ∧
    (∃ s e out, State.atEncodePayload s e (.empty 103) out) ∧
    (zeroSample (some (.empty 32))).payload = some (.empty 32) ∧ (32 : BitVec 16) ∈ [32, 33, 34, 35, 107] :=
  ⟨⟨encoding b0Sample, b0Sample, _, rfl, rfl, rfl⟩,
    ⟨encoding (zeroSample (some .deviceGetInfo)), zeroSample (some .deviceGetInfo), _, rfl, rfl, rfl⟩,
    ⟨encoding (zeroSample (some (.empty 103))), zeroSample (some (.empty 103)), _, rfl, rfl, rfl⟩, rfl, by decide⟩

theorem witness_StateVersionEncodes :
    ∃ s e out, State.atEncodePayload s e (.deviceStateVersion 1 0x16 0x00010002) out :=
  ⟨encoding (zeroSample (some (.deviceStateVersion 1 0x16 0x00010002))), _, _, rfl, rfl, rfl⟩

theorem witness_StateInfoEncodes : ∃ s e out, State.atEncodePayload s e (.deviceStateInfo 1 2 3) out :=
  ⟨encoding (zeroSample (some (.deviceStateInfo 1 2 3))), _, _, rfl, rfl, rfl⟩

theorem witness_LightStateEncodes :
    (encoding lsSample).atEncodePayload lsSample lsPayload (headerWrites lsSample lsPayload) := ⟨rfl, rfl, rfl⟩

theorem witness_EncodeRefinesCodec : (withEnc lsRegs).encodeReady lsSample := ready_withEnc

/-- Each of the six tags. -/
theorem witness_FrameLengthByTag :
    (withEnc zeroEncIn).encodeReady (zeroSample (some (.empty 0))) ∧
    (withEnc { zeroEncIn with ptag := .holds 1 }).encodeReady (zeroSample (some .deviceGetVersion)) ∧
    (withEnc { zeroEncIn with ptag := .holds 2 }).encodeReady (zeroSample (some (.deviceStateVersion 0 0 0))) ∧
    (withEnc { zeroEncIn with ptag := .holds 3 }).encodeReady (zeroSample (some .deviceGetInfo)) ∧
    (withEnc { zeroEncIn with ptag := .holds 4 }).encodeReady (zeroSample (some (.deviceStateInfo 0 0 0))) ∧
    (withEnc lsRegs).encodeReady lsSample :=
  ⟨ready_of_sample rfl, ready_of_sample rfl, ready_of_sample rfl, ready_of_sample rfl, ready_of_sample rfl,
    ready_withEnc⟩

theorem witness_CodecRoundTrip : lsMessage.valid = true := by decide

theorem witness_LoopbackRoundTrip :
    lsMessage.valid = true ∧ (withEnc lsRegs).encodeReady lsMessage.sample ∧ (withEnc lsRegs).decUnit = .idle :=
  ⟨by decide, ready_of_sample rfl, rfl⟩

/-- A frame whose window is longer than its variant. -/
theorem witness_ReencodeOfDecoded : ∃ m win, decodeFrame gi40 = some (m, win) := ⟨_, _, rfl⟩

theorem witness_RequestFrame :
    (∃ t, exec .decode (withInput b0) = .next t) ∧ ∃ t, exec .encode (withEnc lsRegs) = .next t :=
  ⟨⟨_, rfl⟩, _, rfl⟩

theorem witness_FormatFrameOnDecoder :
    Instr.deviceGetVersion.format = .kind16 ∧ (decoding b0).mover = .dec ∧
    ∃ t, exec .deviceGetVersion (decoding b0) = .next t := ⟨rfl, rfl, _, rfl⟩

theorem witness_FormatFrameOnEncoder :
    Instr.lightState.format = .kind16 ∧ (encoding lsSample).mover = .enc ∧
    ∃ t, exec .lightState (encoding lsSample) = .next t := ⟨rfl, rfl, _, rfl⟩

theorem witness_UnitsNeverWriteInputs : ∃ t, exec .lightState (encoding lsSample) = .next t := ⟨_, rfl⟩

theorem witness_ResultsKeepTheirValues :
    (∃ t, hostAct (.writeDecLen 36) bothOk = .next t) ∧ (∃ t, unitMove .enc (encoding lsSample) = .next t) ∧
    ∃ t, unitMove .dec (decoding b0) = .next t := by
  refine ⟨⟨{ bothOk with decLen := .holds 36 }, ?_⟩, ⟨_, rfl⟩, _, rfl⟩
  show hostWriteDecLen 36 bothOk = _
  rw [hostWriteDecLen, if_pos (.inl (by decide))]
  rfl

theorem witness_StepKeepsInvariant : bothOk.Inv ∧ ∃ t, step bothOk = .next t := ⟨bothOk_inv, _, rfl⟩

/-- The two starts, a start with a completion, and the two completions, each in both orders. -/
theorem witness_UnitsCommute :
    (∃ s t u : State, exec .decode s = .next t ∧ exec .encode t = .next u) ∧
    (∃ s t u : State, exec .encode s = .next t ∧ exec .decode t = .next u) ∧
    (∃ s t u : State, exec .decode s = .next t ∧ unitMove .enc t = .next u) ∧
    (∃ s t u : State, unitMove .enc s = .next t ∧ exec .decode t = .next u) ∧
    (∃ s t u : State, exec .encode s = .next t ∧ unitMove .dec t = .next u) ∧
    (∃ s t u : State, unitMove .dec s = .next t ∧ exec .encode t = .next u) ∧
    (∃ s t u : State, unitMove .dec s = .next t ∧ unitMove .enc t = .next u) ∧
    ∃ s t u : State, unitMove .enc s = .next t ∧ unitMove .dec t = .next u :=
  ⟨⟨{ withInput b0 with encIn := lsRegs }, _, _, rfl, rfl⟩, ⟨{ withInput b0 with encIn := lsRegs }, _, _, rfl, rfl⟩,
    ⟨{ withInput b0 with encUnit := .inFlight (beginEncode lsSample) }, _, _, rfl, rfl⟩,
    ⟨{ withInput b0 with encUnit := .inFlight (beginEncode lsSample) }, _, _, rfl, rfl⟩,
    ⟨{ decoding b0 with encIn := lsRegs }, _, _, rfl, rfl⟩, ⟨{ decoding b0 with encIn := lsRegs }, _, _, rfl, rfl⟩,
    ⟨{ decoding b0 with encUnit := .inFlight (beginEncode lsSample) }, _, _, rfl, rfl⟩,
    ⟨{ decoding b0 with encUnit := .inFlight (beginEncode lsSample) }, _, _, rfl, rfl⟩⟩

/-- Two states that differ in the encoder only. -/
theorem witness_DecoderIgnoresEncoder :
    ∃ s s' : State, s ≠ s' ∧ s.decIn = s'.decIn ∧ s.decLen = s'.decLen ∧ s.decUnit = s'.decUnit ∧
      s.decStatus = s'.decStatus ∧ s.decRegs = s'.decRegs ∧ ∃ t, exec .decode s = .next t :=
  ⟨withInput b0, { withInput b0 with encStatus := 2 }, by decide, rfl, rfl, rfl, rfl, rfl, _, rfl⟩

theorem witness_EveryTransactionCompletes :
    (withInput b0).decodeReady b0 ∧ (withInput []).decodeReady [] ∧ (withEnc lsRegs).encodeReady lsSample :=
  ⟨ready_withInput _, ready_withInput _, ready_withEnc⟩

theorem witness_EmptyAgendaDrains : bothOk.Inv ∧ bothOk.agenda = [] := ⟨bothOk_inv, rfl⟩

theorem witness_FormatsRunOnlyWhereRouted :
    Instr.lightState.format = .kind16 ∧
    ((decoding b0).mover = .dec ∧ ∀ input cur h win,
      (decoding b0).decUnit = .inFlight ⟨input, cur, .payload h win⟩ → decodeKind h.kind ≠ .lightState) ∧
    ((encoding b0Sample).mover = .enc ∧ ∀ e out p, (encoding b0Sample).encUnit = .inFlight ⟨e, .headerWritten out⟩ →
      e.payload = some p → p.variant ≠ .lightState) := by
  refine ⟨rfl, ⟨rfl, fun input cur h win hu => ?_⟩, rfl, fun e out p hu hp => ?_⟩
  · cases hu; decide
  · cases hu; cases hp; decide

/-- Both statuses at the error code; and both OK, a payload register of another variant, the byte at `ENC_LEN` and the
last one. -/
theorem witness_UnspecifiedReadsFault :
    (bothError.Inv ∧ bothError.decUnit = .idle ∧ bothError.decStatus ≠ statusOk ∧ bothError.encUnit = .idle ∧
      bothError.encStatus ≠ statusOk) ∧
    (bothOk.Inv ∧ bothOk.decStatus = statusOk ∧ bothOk.decRegs.ptag = 1 ∧ DecReg.pHue.payloadTag = some 5 ∧
      bothOk.encStatus = statusOk ∧ bothOk.encLen = 36 ∧
      faultOf (hostReadReg (.encOut 36) bothOk) = some .unspecifiedRead ∧
      faultOf (hostReadReg (.encOut 87) bothOk) = some .unspecifiedRead) :=
  ⟨⟨bothError_inv, rfl, by decide, rfl, by decide⟩, bothOk_inv, rfl, rfl, rfl, rfl, rfl, by decide, by decide⟩

/-- Both statuses OK, the last byte below `ENC_LEN`, and the busy bits of idle and of busy units. -/
theorem witness_SpecifiedReadsDeliver :
    [hostReadReg .decBusy (decoding b0), hostReadReg .decBusy bothOk, hostReadReg .encBusy (encoding lsSample),
      hostReadReg .encBusy bothOk].map (fun o => (nextOf o).map (·.hostRead)) =
      [some (some (.flag true)), some (some (.flag false)), some (some (.flag true)), some (some (.flag false))] ∧
    [hostReadReg .decStatus bothOk, hostReadReg .encStatus bothError].map (fun o => (nextOf o).map (·.hostRead)) =
      [some (some (.unsigned 1)), some (some (.unsigned 2))] ∧
    (bothError.Inv ∧ bothError.encUnit = .idle) ∧
    bothOk.Inv ∧ bothOk.decUnit = .idle ∧ bothOk.decStatus = statusOk ∧ bothOk.decRegs.ptag = 1 ∧
    DecReg.size.payloadTag = none ∧ bothOk.encUnit = .idle ∧ bothOk.encStatus = statusOk ∧
    (nextOf (hostReadReg (.encOut 35) bothOk)).map (·.hostRead) = some (some (.unsigned 0)) :=
  ⟨by decide, by decide, ⟨bothError_inv, rfl⟩, bothOk_inv, rfl, rfl, rfl, rfl, rfl, rfl, by decide⟩

theorem witness_BusyHazard : (decoding b0).decBusy = true ∧ (encoding lsSample).encBusy = true := ⟨rfl, rfl⟩

/-- The last held offset of a 36-byte DECODE and the first free one. -/
theorem witness_InputStability :
    (decoding b0).decUnit = .inFlight (beginDecode b0) ∧ 35 < min (beginDecode b0).input.length 88 ∧
    min (beginDecode b0).input.length 88 ≤ 36 ∧ 36 < Config.maxInLen ∧ 88 ≤ Config.maxInLen ∧
    (encoding lsSample).encUnit = .inFlight (beginEncode lsSample) ∧ State.reset.decUnit = .idle ∧
    State.reset.encUnit = .idle := by
  have := le_maxInLen
  exact ⟨rfl, by decide, by decide, by omega, this, rfl, rfl, rfl⟩

/-- A length without its last byte, and encoder inputs without the last one their tag reads. -/
theorem witness_UnwrittenInputsFault :
    (State.reset.decUnit = .idle ∧ State.reset.decLen.written = false) ∧
    (∃ s : State, s.decUnit = .idle ∧ s.decLen = .holds 2 ∧ s.decIn.read 1 = none ∧ s.decIn.read 0 = some 0x24) ∧
    (State.reset.encUnit = .idle ∧ State.reset.encIn.version.written = false) ∧
    refusalOf (exec .encode (withEnc lsRegs)) = none ∧
    [exec .encode (withEnc { zeroEncIn with emptyKind := .unwritten 0 }),
      exec .encode (withEnc { zeroEncIn with ptag := .holds 2, pVersion := .unwritten 0 }),
      exec .encode (withEnc { zeroEncIn with ptag := .holds 4, pDowntime := .unwritten 0 }),
      exec .encode (withEnc { lsRegs with pTags := .unwritten 0 })].map faultOf =
      List.replicate 4 (some .inputNotWritten) :=
  ⟨⟨rfl, rfl⟩, ⟨{ State.reset with decLen := .holds 2, decIn := [(0, 0x24)] }, rfl, rfl, rfl, rfl⟩, ⟨rfl, rfl⟩,
    by decide, by decide⟩

theorem witness_OutsideBufferFaults :
    Config.maxInLen ≤ Config.maxInLen ∧ Config.maxInLen < Config.maxInLen + 1 ∧ State.reset.encUnit = .idle ∧ 88 ≤ 88 :=
  ⟨Nat.le_refl _, Nat.lt_succ_self _, rfl, Nat.le_refl _⟩

/-- A frame to copy, and each place where COPY stops: a busy encoder, a busy decoder beside an idle encoder, an
encoder status that is not OK, and a length whose last byte holds no value. -/
theorem witness_CopyMovesFrame :
    (bothOk.decUnit = .idle ∧ bothOk.encUnit = .idle ∧ bothOk.encStatus = statusOk ∧
      ∀ i, i < bothOk.encLen.toNat → ∃ b, bothOk.encOut.read i = some b) ∧
    (encoding lsSample).encUnit = .inFlight (beginEncode lsSample) ∧
    ((decoding b0).encUnit = .idle ∧ (decoding b0).decUnit = .inFlight (beginDecode b0)) ∧
    (bothError.decUnit = .idle ∧ bothError.encUnit = .idle ∧ bothError.encStatus ≠ statusOk) ∧
    (35 < { bothOk with encOut := bothOk.encOut.take 35 }.encLen.toNat ∧
      { bothOk with encOut := bothOk.encOut.take 35 }.encOut.read 35 = none) ∧
    bothOk.Inv :=
  ⟨⟨rfl, rfl, rfl, fun i hi => ⟨(bothOk.encOut.read i).getD 0, by revert i; decide⟩⟩, rfl, ⟨rfl, rfl⟩,
    ⟨rfl, rfl, by decide⟩, ⟨by decide, by decide⟩, bothOk_inv⟩

/-- Idle units with status OK: the last byte of a frame and the first behind it, a header register, and a payload register of
another variant. -/
theorem witness_EachRegisterReadsItself :
    bothOk.decUnit = .idle ∧ bothOk.encUnit = .idle ∧ bothOk.encOut.read 35 = some 0 ∧ bothOk.encOut.read 36 = none ∧
    bothOk.decStatus = 1 ∧ bothOk.decRegs.kind = 32 ∧ bothOk.decRegs.ptag ≠ 5 ∧ bothOk.encStatus = 1 ∧
    bothOk.encLen = 36 := by decide

theorem witness_EncoderInputWrites : bothOk.encUnit = .idle := rfl

end Sys2Proof.Tests
end

section
/-! PROOF. Host reads of the result registers of an idle unit, and the two statements about unspecified registers
(10_state.md rules R36, R45). -/

namespace Sys2Proof.Machine

/-! Reads of the encoder outputs. -/

/-- A read of `ENC_LEN` of an idle unit delivers its value where it is specified, and else faults. -/
theorem hostReadReg_encLen (s : State) (h : s.encUnit = .idle) :
    hostReadReg .encLen s =
      if s.encSpecified then .next { s with hostRead := some (.unsigned s.encLen.toNat) } else .fault .unspecifiedRead := by
  simp only [hostReadReg, (encBusy_eq_false s).2 h]
  cases s.encSpecified <;> rfl

/-- A read of an `ENC_OUT` byte of an idle unit delivers the byte that is specified there, if one is. -/
theorem hostReadReg_encOut (s : State) (i : Nat) (h : s.encUnit = .idle) (hi : i < 88) :
    hostReadReg (.encOut i) s = deliver s ((s.outByte i).map fun b => .unsigned b.toNat) := by
  simp [hostReadReg, (encBusy_eq_false s).2 h, hi]

/-- An output byte has no specified value while the status is not OK, nor from `ENC_LEN` on. -/
theorem outByte_eq_none (s : State) (i : Nat) (h : s.encStatus = statusOk → s.encLen.toNat ≤ i) :
    s.outByte i = none := by
  refine if_neg fun ⟨hspec, hlt⟩ => ?_
  have hle : s.encLen.toNat ≤ i := h ((encSpecified_eq_true s).1 hspec)
  omega

/-! Reads of unspecified registers (rule R36). -/

theorem hostReadReg_dec_unspecified (s : State) (r : DecReg) (hu : s.decUnit = .idle)
    (h : s.decStatus = statusOk → ∃ tag, r.payloadTag = some tag ∧ tag ≠ s.decRegs.ptag) :
    hostReadReg (.dec r) s = .fault .unspecifiedRead := by
  rw [hostReadReg_dec s r hu, if_neg]
  rw [decSpecified_eq_true]
  rintro ⟨hok, hactive⟩
  obtain ⟨tag, hr, hne⟩ := h hok
  simp [hr, hne] at hactive

theorem hostReadReg_encLen_unspecified (s : State) (hu : s.encUnit = .idle) (hs : s.encStatus ≠ statusOk) :
    hostReadReg .encLen s = .fault .unspecifiedRead := by
  rw [hostReadReg_encLen s hu, if_neg ((encSpecified_eq_true s).not.2 hs)]

theorem hostReadReg_encOut_unspecified (s : State) (i : Nat) (hu : s.encUnit = .idle) (hi : i < 88)
    (h : s.encStatus = statusOk → s.encLen.toNat ≤ i) : hostReadReg (.encOut i) s = .fault .unspecifiedRead := by
  rw [hostReadReg_encOut s i hu hi, outByte_eq_none s i h]
  rfl

/-! The statements. -/

/-- Settles O52: each clause is a read of a register that is not specified. -/
theorem unspecifiedReadsFault : Obligations.UnspecifiedReadsFault := by
  intro s
  refine ⟨fun hu hs r => ?_, fun hu _ r tag hr hne => ?_, fun hu hs => ⟨?_, fun i hi => ?_⟩, fun hu _ i hle hi => ?_⟩
  · exact hostReadReg_dec_unspecified s r hu (absurd · hs)
  · exact hostReadReg_dec_unspecified s r hu fun _ => ⟨tag, hr, hne⟩
  · exact hostReadReg_encLen_unspecified s hu hs
  · exact hostReadReg_encOut_unspecified s i hu hi (absurd · hs)
  · exact hostReadReg_encOut_unspecified s i hu hi fun _ => hle

/-- No encoder input counts as written after reset (rule R45). -/
theorem encRegs_reset_allUnwritten : EncRegs.reset.allUnwritten := by
  simp [EncRegs.allUnwritten, EncRegs.reset]

/-- Settles O1: both statuses are IDLE, so that every result read is one of `unspecifiedReadsFault`. -/
theorem resetLeavesIdleAndUnspecified : Obligations.ResetLeavesIdleAndUnspecified := by
  obtain ⟨hdec, -, henc, -⟩ := unspecifiedReadsFault State.reset
  obtain ⟨hlen, hout⟩ := henc rfl (by decide)
  exact ⟨rfl, rfl, rfl, rfl, hdec rfl (by decide), hlen, hout, read_nil, rfl, encRegs_reset_allUnwritten, rfl, rfl⟩

end Sys2Proof.Machine
end

section
/-! PROOFS. Protocol bitfield and ack-bitfield: what `packProtocol` and `packAck` put together, the extractions of rule
R89 take apart again. -/

namespace Sys2Proof.Machine

/-- Only `version[11:0]` enters the protocol bitfield (rule R90). -/
theorem packProtocol_maskVersion (v : BitVec 16) (a t : Bool) :
    packProtocol (v &&& 0x0FFF) a t = packProtocol v a t := by
  simp [packProtocol, BitVec.and_assoc]

/-- The mask `0x0FFF` keeps a version modulo 2^12. -/
theorem maskVersion_toNat (v : BitVec 16) : (v &&& 0x0FFF).toNat = v.toNat % 4096 := by
  rw [BitVec.toNat_and]
  exact Nat.and_two_pow_sub_one_eq_mod v.toNat 12

/-- The protocol bitfield as a sum, for a version of any size: `packProtocol_toNat` without its bound (rule R90). -/
theorem packProtocol_toNat_mod (v : BitVec 16) (a t : Bool) :
    (packProtocol v a t).toNat = v.toNat % 4096 + (if a then 4096 else 0) + (if t then 8192 else 0) := by
  have hlt : (v &&& 0x0FFF).toNat < 4096 := by
    rw [maskVersion_toNat]; exact Nat.mod_lt _ (by decide)
  rw [← packProtocol_maskVersion, packProtocol_toNat _ a t hlt, maskVersion_toNat]

/-- The flags stand above bit 11, so the version bits of the protocol bitfield are the version's own. -/
theorem protocolVersion_packProtocol_toNat (v : BitVec 16) (a t : Bool) :
    (protocolVersion (packProtocol v a t)).toNat = v.toNat % 4096 := by
  rw [protocolVersion, BitVec.toNat_setWidth, packProtocol_toNat_mod]
  split_ifs <;> omega

@[simp] theorem protocolAddressable_packProtocol (v : BitVec 16) (a t : Bool) :
    protocolAddressable (packProtocol v a t) = a := by
  cases a <;> cases t <;> simp [protocolAddressable, packProtocol]

@[simp] theorem protocolTagged_packProtocol (v : BitVec 16) (a t : Bool) :
    protocolTagged (packProtocol v a t) = t := by
  cases a <;> cases t <;> simp [protocolTagged, packProtocol]

@[simp] theorem ackAcknowledge_packAck (a : Bool) : ackAcknowledge (packAck a) = a := by
  cases a <;> rfl

theorem packAck_toNat (a : Bool) : (packAck a).toNat = if a then 1 else 0 := by
  cases a <;> rfl

/-- Settles O29: the sum is `packProtocol_toNat` of the masked version; the version bits and the two flag bits of the
protocol bitfield do not overlap. -/
theorem protocolBitfieldRoundTrip : Obligations.ProtocolBitfieldRoundTrip := by
  intro v a t
  exact ⟨packProtocol_toNat_mod v a t, protocolVersion_packProtocol_toNat v a t,
    protocolAddressable_packProtocol v a t, protocolTagged_packProtocol v a t, ackAcknowledge_packAck a, packAck_toNat a⟩

end Sys2Proof.Machine
end

section
/-! PROOF. The header fields of a DECODE (40_header_decode.md rules R110 to R119, R121): what each field read gives
inside the input and past its end, what a completed header stage has read, and where the cursor stands at a short read. -/

namespace Sys2Proof.Machine

/-! Field reads. Every integer field is a `memRead` with its value converted. -/

theorem map_memRead_ok {α : Type} (f : Nat → α) (input : List Byte) (off n : Nat) (h : off + n ≤ input.length) :
    (memRead input off n).map f = .ok (f (frameNat input off n)) := by
  rw [memRead_ok input off n h, except_map_ok]

theorem map_memRead_error {α : Type} (f : Nat → α) (input : List Byte) (off n : Nat) (h : input.length < off + n) :
    (memRead input off n).map f = .error ⟨off, n⟩ := by
  rw [memRead_error input off n h, except_map_error]

/-- Two bytes fill a 16-bit field exactly, so that no bit of them is lost. -/
theorem ofNat_frameNat_two_toNat (b : List Byte) (off : Nat) :
    (BitVec.ofNat 16 (frameNat b off 2)).toNat = frameNat b off 2 :=
  (BitVec.toNat_ofNat ..).trans (Nat.mod_eq_of_lt (frameNat_lt b off 2))

theorem leNat_pair (lo hi : Byte) : leNat [lo, hi] = lo.toNat + 256 * hi.toNat := by
  simp [leNat]

theorem frameBytes_getElem? (b : List Byte) (off n i : Nat) (h : off + n ≤ b.length) (hi : i < n) :
    (frameBytes b off n).toList[i]? = b[off + i]? := by
  have htake : (frameBytes b off n).toList = (b.drop off).take n :=
    takeD_eq_take _ _ (by rw [List.length_drop]; omega)
  rw [htake, List.getElem?_take_of_lt hi, List.getElem?_drop]

/-- A raw read inside the input copies its bytes in order (rule R63). -/
theorem memReadBytes_copies (input : List Byte) (off n : Nat) (h : off + n ≤ input.length) :
    ∃ v, memReadBytes input off n = .ok v ∧ ∀ i, i < n → v.toList[i]? = input[off + i]? :=
  ⟨_, memReadBytes_ok input off n h, fun i hi => frameBytes_getElem? input off n i h hi⟩

/-! Bit fields (rules R111, R112, R117). -/

theorem protocolVersion_toNat (pb : BitVec 16) : (protocolVersion pb).toNat = pb.toNat % 4096 :=
  BitVec.toNat_setWidth ..

theorem getLsbD_eq_decide_div_mod {w : Nat} (v : BitVec w) (i : Nat) :
    v.getLsbD i = decide (v.toNat / 2 ^ i % 2 = 1) :=
  Nat.testBit_eq_decide_div_mod_eq

/-! The header stage. -/

/-- The reads of rules R110 to R119 all succeed on an input, and a header holds what they give. -/
structure HeaderReads (input : List Byte) (h : Header) : Prop where
  size : readSize input = .ok h.size
  protocol : ∃ pb, readProtocol input = .ok pb ∧ h.version = protocolVersion pb ∧
    h.addressable = protocolAddressable pb ∧ h.tagged = protocolTagged pb
  transaction : readTransaction input = .ok ()
  target : readTarget input = .ok h.target
  site : readSite input = .ok h.site
  ack : ∃ ab, readAck input = .ok ab ∧ h.acknowledge = ackAcknowledge ab
  atTime : readAtTime input = .ok h.atTime
  kind : readKind input = .ok h.kind
  tail : readTail input = .ok ()

/-- A sequence of two computations succeeds only if both do. -/
theorem except_bind_eq_ok {ε α β : Type} (x : Except ε α) (f : α → Except ε β) (b : β) :
    (x >>= f) = .ok b ↔ ∃ a, x = .ok a ∧ f a = .ok b := by
  cases x <;> simp

/-- A header stage that completes has read every field. -/
theorem headerStage_reads (input : List Byte) (h : Header) (hok : headerStage input = .ok h) :
    HeaderReads input h := by
  simp only [headerStage, except_bind_eq_ok] at hok
  obtain ⟨size, hsize, pb, hpb, ⟨⟩, htrans, target, htarget, site, hsite, ab, hab, atTime, htime, kind, hkind, ⟨⟩,
    htail, hret⟩ := hok
  cases hret
  exact {
    size := hsize, protocol := ⟨pb, hpb, rfl, rfl, rfl⟩, transaction := htrans, target := htarget, site := hsite,
    ack := ⟨ab, hab, rfl⟩, atTime := htime, kind := hkind, tail := htail }

/-! The cursor (rules R26, R124). -/

/-- An input that ends inside a header field fails at that field. That a field of `n` bytes starts at `off` is said by
`shortField` itself: an input that ends where the field starts fails there. -/
theorem shortField_inside (off n len : Nat) (hfield : shortField off = ⟨off, n⟩) (hle : off ≤ len)
    (hlt : len < off + n) : shortField len = ⟨off, n⟩ ∧ len < 36 := by
  simp only [shortField] at hfield
  split_ifs at hfield <;> cases hfield <;>
    exact ⟨by simp (disch := omega) only [shortField, if_pos, if_neg], by omega⟩

/-- At a short read the cursor stands at the first byte of the field that could not be read. -/
theorem beginDecode_cur_short (off n : Nat) (input : List Byte) (hfield : shortField off = ⟨off, n⟩)
    (hle : off ≤ input.length) (hlt : input.length < off + n) : (beginDecode input).cur = off := by
  obtain ⟨hshort, hlen⟩ := shortField_inside off n input.length hfield hle hlt
  rw [beginDecode_short input hlen, hshort]

theorem beginDecode_cur_whole (input : List Byte) (h : 36 ≤ input.length) : (beginDecode input).cur = 36 := by
  rw [beginDecode_ok input h]

/-! The statements. -/

/-- Settles O11: two bytes are the whole 16-bit value, and a bit of it is a quotient modulo 2. -/
theorem sizeAndProtocolFields : Obligations.SizeAndProtocolFields := by
  refine ⟨fun input h => map_memRead_error _ input 0 2 h, fun b0 b1 rest => ?size,
    fun input h => map_memRead_error _ input 2 2 h, fun b0 b1 b2 b3 rest => ?protocol,
    fun pb => ⟨protocolVersion_toNat pb, getLsbD_eq_decide_div_mod pb 12, getLsbD_eq_decide_div_mod pb 13⟩,
    fun input h hok => ?stage, fun h win p s => ?commit,
    fun input hlt => beginDecode_cur_short 0 2 input rfl (Nat.zero_le _) hlt,
    fun input => beginDecode_cur_short 2 2 input rfl, fun input => beginDecode_cur_short 4 4 input rfl⟩
  case size =>
    exact ⟨_, map_memRead_ok _ _ 0 2 (by simp), (ofNat_frameNat_two_toNat _ 0).trans (leNat_pair b0 b1)⟩
  case protocol =>
    exact ⟨_, map_memRead_ok _ _ 2 2 (by simp), (ofNat_frameNat_two_toNat _ 2).trans (leNat_pair b2 b3)⟩
  case stage =>
    have hreads := headerStage_reads input h hok
    exact ⟨hreads.size, hreads.protocol⟩
  case commit =>
    obtain ⟨hsize, hversion, haddr, htagged, -⟩ := withResult_hasHeader s.decRegs h win p
    exact ⟨hsize, hversion, haddr, htagged⟩

/-- Settles O12: the three fields are one discarded integer read and two raw copies. -/
theorem transactionTargetSiteFields : Obligations.TransactionTargetSiteFields := by
  refine ⟨fun input h => map_memRead_error _ input 4 4 h, fun input h => map_memRead_ok _ input 4 4 h,
    fun input h => memReadBytes_error input 8 8 h, fun input h => memReadBytes_copies input 8 8 h,
    fun input h => memReadBytes_error input 16 6 h, fun input h => memReadBytes_copies input 16 6 h,
    fun input h hok => ?stage, fun h win p s => ?commit, fun input => beginDecode_cur_short 8 8 input rfl,
    fun input => beginDecode_cur_short 16 6 input rfl, fun input => beginDecode_cur_short 22 2 input rfl⟩
  case stage =>
    have hreads := headerStage_reads input h hok
    exact ⟨hreads.transaction, hreads.target, hreads.site⟩
  case commit =>
    obtain ⟨-, -, -, -, htarget, hsite, -⟩ := withResult_hasHeader s.decRegs h win p
    exact ⟨htarget, hsite⟩

/-- Settles O13: four integer reads, the last one discarded; the cursor reaches 36 only when that one succeeds too. -/
theorem ackTimeKindFields : Obligations.AckTimeKindFields := by
  refine ⟨fun input h => map_memRead_error _ input 22 2 h, fun input h => map_memRead_ok _ input 22 2 h,
    fun ab => ?acknowledge,
    fun input h => map_memRead_error _ input 24 8 h, fun input h => map_memRead_ok _ input 24 8 h,
    fun input h => map_memRead_error _ input 32 2 h, fun input h => map_memRead_ok _ input 32 2 h,
    fun input h => map_memRead_error _ input 34 2 h, fun input h => map_memRead_ok _ input 34 2 h,
    fun input h hok => ?stage, fun h win p s => ?commit, fun input => beginDecode_cur_short 24 8 input rfl,
    fun input => beginDecode_cur_short 32 2 input rfl, fun input => beginDecode_cur_short 34 2 input rfl,
    beginDecode_cur_whole⟩
  case acknowledge =>
    rw [ackAcknowledge, getLsbD_eq_decide_div_mod, pow_zero, Nat.div_one]
  case stage =>
    have hreads := headerStage_reads input h hok
    exact ⟨hreads.ack, hreads.atTime, hreads.kind, hreads.tail⟩
  case commit =>
    obtain ⟨-, -, -, -, -, -, hack, htime, hkind, -⟩ := withResult_hasHeader s.decRegs h win p
    exact ⟨hack, htime, hkind⟩

/-! The routing function (rule R121). -/

/-- The kinds that an Empty may carry are those outside the routing table. -/
theorem empty_wellFormed_iff (k : BitVec 16) : (Instr.empty k).wellFormed = true ↔ k ∉ [32, 33, 34, 35, 107] := by
  simp [Instr.wellFormed, tableKind_eq_false]

/-- Settles O4: a kind outside the table is that of a well-formed Empty, which its kind selects. -/
theorem kindRouting : Obligations.KindRouting :=
  ⟨rfl, rfl, rfl, rfl, rfl, fun k hk => decodeKind_kind (.empty k) ((empty_wellFormed_iff k).2 hk)⟩

end Sys2Proof.Machine
end

section
/-! PROOF. The payload formats on the decoder (41_payload_decode.md rules R141 to R148): the completion of a DECODE whose
window holds the variant's fields or not, and which bytes of the input it depends on. -/

namespace Sys2Proof.Machine

/-! Completion at the payload stage. -/

/-- A format that the kind selects commits what its decode rule gives, whatever the input and the window are. -/
theorem runVariant_dec_ok (s : State) (input : List Byte) (cur : Nat) (h : Header) (win : Nat) (i : Instr)
    (decRule : List Byte → Nat → Except TruncatedInput Payload) (encRule : Payload → Mem → Mem) (p : Payload)
    (hm : s.mover = .dec) (hu : s.decUnit = .inFlight ⟨input, cur, .payload h win⟩) (hi : decodeKind h.kind = i)
    (hrule : decRule input win = .ok p) : runVariant i decRule encRule s = .next (commitDecode h win p s) := by
  simp only [runVariant, hm, completeDecode, hu, hi, if_true, hrule]

/-- The payload stage with a window that holds the variant's fields: the DECODE commits the frame's payload. -/
theorem exec_atDecodePayload_ok (s : State) (input : List Byte) (h : Header) (win : Nat)
    (hs : s.atDecodePayload input h win) (hfits : payloadLen (decodeKind h.kind) ≤ win) :
    exec (decodeKind h.kind) s = .next (commitDecode h win (framePayload h.kind input) s) := by
  obtain ⟨hm, ⟨cur, hu⟩, hl, hw⟩ := hs
  rw [payloadLen_decodeKind] at hfits
  rw [exec_on_decoder s input cur h win hm hu hl hw, if_pos hfits]

/-- The payload stage with a shorter window: the DECODE reports TruncatedInput. -/
theorem exec_atDecodePayload_short (s : State) (input : List Byte) (h : Header) (win : Nat)
    (hs : s.atDecodePayload input h win) (hshort : win < payloadLen (decodeKind h.kind)) :
    exec (decodeKind h.kind) s = .next (raiseError .dec s) := by
  obtain ⟨hm, ⟨cur, hu⟩, hl, hw⟩ := hs
  rw [payloadLen_decodeKind] at hshort
  rw [exec_on_decoder s input cur h win hm hu hl hw, if_neg (Nat.not_le.2 hshort)]

/-- Both completions of the format that a kind selects, in terms of the registers (rules R125, R193). -/
theorem exec_atDecodePayload_outcome (s : State) (input : List Byte) (h : Header) (win : Nat) (k : BitVec 16)
    (hs : s.atDecodePayload input h win) (hk : h.kind = k) :
    (payloadLen (decodeKind k) ≤ win → ∃ regs, exec (decodeKind k) s =
      .next { s with decUnit := .idle, decStatus := 1, decRegs := regs } ∧
      regs.hasHeader h win (framePayload k input).tag ∧ regs.hasPayload (framePayload k input)) ∧
    (win < payloadLen (decodeKind k) → ∃ regs, exec (decodeKind k) s =
      .next { s with decUnit := .idle, decStatus := 2, decRegs := regs }) := by
  subst hk
  exact ⟨fun hfits => ⟨_, exec_atDecodePayload_ok s input h win hs hfits, withResult_hasHeader ..,
    withResult_hasPayload ..⟩, fun hshort => ⟨_, exec_atDecodePayload_short s input h win hs hshort⟩⟩

/-! What a committed DECODE delivers. -/

/-- After an OK decode a result register is specified when it is a header register or one of the variant's (rule R36). -/
theorem decSpecified_commitDecode (s : State) (h : Header) (win : Nat) (p : Payload) (r : DecReg) :
    (commitDecode h win p s).decSpecified r = true ↔ r.payloadTag = none ∨ r.payloadTag = some p.tag := by
  simp

/-- What the host reads of a committed DECODE depends on the header, the window and the payload alone. -/
theorem delivered_commitDecode (s s' : State) (h : Header) (win : Nat) (p : Payload) (r : DecReg) :
    delivered (.dec r) (commitDecode h win p s) = delivered (.dec r) (commitDecode h win p s') := by
  rw [delivered_dec _ r rfl, delivered_dec _ r rfl]
  simp only [decSpecified_commitDecode]
  split_ifs with hr
  · exact congrArg some (withResult_readValue s.decRegs s'.decRegs h win p r hr)
  · rfl

/-! Which bytes the payload depends on (rule R148). -/

/-- Two inputs that agree up to an offset agree in every run of bytes below it. -/
theorem take_drop_congr (b d : List Byte) (off n m : Nat) (hle : off + n ≤ m) (hagree : b.take m = d.take m) :
    (b.drop off).take n = (d.drop off).take n := by
  have hinside : ∀ l : List Byte, (l.drop off).take n = ((l.take m).drop off).take n := fun l => by
    rw [List.drop_take, List.take_take, Nat.min_eq_left (by omega)]
  rw [hinside b, hagree, ← hinside d]

theorem frameNat_congr (b d : List Byte) (off n m : Nat) (hagree : b.take m = d.take m) (hle : off + n ≤ m) :
    frameNat b off n = frameNat d off n :=
  congrArg leNat (take_drop_congr b d off n m hle hagree)

/-- A run of bytes padded to `n` depends on its first `n` bytes. -/
theorem takeD_take (l : List Byte) (n : Nat) : (l.take n).takeD n 0 = l.takeD n 0 := by
  induction n generalizing l with
  | zero => rfl
  | succ n ih =>
    cases l with
    | nil => rfl
    | cons x l => exact congrArg (x :: ·) (ih l)

theorem frameBytes_congr (b d : List Byte) (off n m : Nat) (hagree : b.take m = d.take m) (hle : off + n ≤ m) :
    frameBytes b off n = frameBytes d off n := by
  simp only [frameBytes, Bytes.mk.injEq]
  rw [← takeD_take, take_drop_congr b d off n m hle hagree, takeD_take]

/-- The payload of a frame depends on the bytes up to its variant's last field. -/
theorem framePayload_congr (k : BitVec 16) (b d : List Byte)
    (hagree : b.take (36 + kindLen k) = d.take (36 + kindLen k)) : framePayload k b = framePayload k d := by
  have hnat := fun off n => frameNat_congr b d off n _ hagree
  have hbytes := fun off n => frameBytes_congr b d off n _ hagree
  rcases decodeKind_cases k with ⟨rfl, -⟩ | ⟨rfl, -⟩ | ⟨rfl, -⟩ | ⟨rfl, -⟩ | ⟨rfl, -⟩ | ⟨h1, h2, h3, h4, h5, -⟩
  · rfl
  · simp (disch := decide) only [framePayload, BitVec.reduceToNat, hnat]
  · rfl
  · simp (disch := decide) only [framePayload, BitVec.reduceToNat, hnat]
  · simp (disch := decide) only [framePayload, BitVec.reduceToNat, hnat, hbytes]
  · have hk : tableKind k = false := (tableKind_eq_false k).2 ⟨h1, h2, h3, h4, h5⟩
    rw [framePayload_empty k b hk, framePayload_empty k d hk]

/-! The statements. -/

/-- Settles O21: the decode rule of a format without fields looks at neither the input nor the window. -/
theorem fieldlessFormatsDecode : Obligations.FieldlessFormatsDecode := by
  intro s input cur h win hm hu
  have hcommit : ∀ (i : Instr) (p : Payload), decodeKind h.kind = i →
      runVariant i (fun _ _ => .ok p) writeNoFields s = .next (commitDecode h win p s) := fun i p hi =>
    runVariant_dec_ok s input cur h win i _ _ p hm hu hi rfl
  obtain ⟨hversion, -, hinfo, -, -, hempty⟩ := kindRouting
  refine ⟨fun hk => ⟨_, hcommit .deviceGetVersion .deviceGetVersion ?_, withResult_hasHeader ..⟩,
    fun hk => ⟨_, hcommit .deviceGetInfo .deviceGetInfo ?_, withResult_hasHeader ..⟩,
    fun hk => ⟨_, hcommit (.empty h.kind) (.empty h.kind) (hempty h.kind hk), withResult_hasHeader ..⟩⟩
  · rw [hk, hversion]
  · rw [hk, hinfo]

/-- Settles O22: the payload of a frame of kind 33 is three `u32` at offsets 36, 40 and 44, together 12 bytes. -/
theorem stateVersionDecodes : Obligations.StateVersionDecodes := by
  intro s input h win hs hk
  exact exec_atDecodePayload_outcome s input h win 33 hs hk

/-- Settles O23: the payload of a frame of kind 35 is three `u64` at offsets 36, 44 and 52, together 24 bytes. -/
theorem stateInfoDecodes : Obligations.StateInfoDecodes := by
  intro s input h win hs hk
  exact exec_atDecodePayload_outcome s input h win 35 hs hk

/-- Settles O26: both DECODEs commit one payload, since it depends on the agreeing bytes only. -/
theorem excessWindowBytesUnread : Obligations.ExcessWindowBytesUnread := by
  intro s input input' h win s' hs hs' hfits hagree
  have hpayload : framePayload h.kind input = framePayload h.kind input' :=
    framePayload_congr h.kind input input' (payloadLen_decodeKind h.kind ▸ hagree)
  refine ⟨_, _, exec_atDecodePayload_ok s input h win hs hfits, exec_atDecodePayload_ok s' input' h win hs' hfits,
    rfl, rfl, fun r => ?_⟩
  rw [hpayload]
  exact delivered_commitDecode s s' h win (framePayload h.kind input') r

end Sys2Proof.Machine
end

section
/-! PROOF. The encoder's writes (42_serialize.md rules R160 to R175, R180): a range of bytes cut into its fields, the
header fields, the payload formats with at most three fields, and which requests are ill-formed. -/

namespace Sys2Proof.Machine

/-! Ranges of bytes, cut into fields. -/

/-- A buffer holds two runs of bytes one behind the other exactly when it holds each at its own offset. -/
theorem readRange_append (m : Mem) (off : Nat) (a b : List Byte) :
    m.readRange off (a ++ b).length = some (a ++ b) ↔
      m.readRange off a.length = some a ∧ m.readRange (off + a.length) b.length = some b := by
  simp only [readRange_eq_some, true_and, List.length_append]
  constructor
  · intro h
    refine ⟨fun i hi => ?_, fun i hi => ?_⟩
    · rw [h i (by omega), List.getElem?_append_left hi]
    · rw [Nat.add_assoc, h _ (by omega), List.getElem?_append_right (by omega), Nat.add_sub_cancel_left]
  · rintro ⟨ha, hb⟩ i hi
    rcases Nat.lt_or_ge i a.length with hlt | hge
    · rw [ha i hlt, List.getElem?_append_left hlt]
    · rw [List.getElem?_append_right hge, ← hb _ (by omega), Nat.add_assoc, Nat.add_sub_cancel' hge]

/-- A contiguous write is read back whole. -/
theorem readRange_memWriteBytes (off : Nat) (bs : List Byte) (m : Mem) :
    (memWriteBytes off bs m).readRange off bs.length = some bs := by
  refine (readRange_eq_some ..).2 ⟨rfl, fun i hi => ?_⟩
  rw [read_memWriteBytes, if_pos (by omega), Nat.add_sub_cancel_left]

/-! The header fields (rules R163 to R169). -/

/-- A buffer that holds the header bytes from offset 0 on holds each field at its offset. -/
theorem readRange_headerBytes (e : EncSample) (p : Payload) (m : Mem)
    (h : m.readRange 0 (headerBytes e p).length = some (headerBytes e p)) :
    m.readRange 0 2 = some (leBytes 2 (36 + kindLen p.kind)) ∧
    m.readRange 2 2 = some (leBytes 2
      (e.version.toNat + (if e.addressable then 4096 else 0) + (if e.tagged then 8192 else 0))) ∧
    m.readRange 4 4 = some (leBytes 4 0) ∧ m.readRange 8 8 = some e.target.toList ∧
    m.readRange 16 6 = some e.site.toList ∧ m.readRange 22 2 = some (leBytes 2 (if e.acknowledge then 1 else 0)) ∧
    m.readRange 24 8 = some (leBytes 8 e.atTime.toNat) ∧ m.readRange 32 2 = some (leBytes 2 p.kind.toNat) ∧
    m.readRange 34 2 = some (leBytes 2 0) := by
  simpa only [headerBytes, List.append_assoc, readRange_append, leBytes_length, Bytes.length_eq, Nat.reduceAdd] using h

theorem leBytes_flag (a : Bool) : leBytes 2 (if a then 1 else 0) = if a then [1, 0] else [0, 0] := by
  cases a <;> rfl

/-- Settles O28: the header writes hold the 36 header bytes, whose fields stand one behind the other, and no more. -/
theorem headerFieldWrites : Obligations.HeaderFieldWrites := by
  intro e p hp hwf
  obtain ⟨hv, q, hq, hw⟩ := (illFormed_eq_false e).1 hwf
  obtain rfl : q = p := Option.some.inj (hq.symm.trans hp)
  rw [headerWrites_eq e q hv hw, len_eq_kindLen q hw, Nat.mod_eq_of_lt hv, ← leBytes_flag]
  obtain ⟨hsize, hprotocol, htransaction, htarget, hsite, hack, htime, hkind, htail⟩ :=
    readRange_headerBytes e q _ (readRange_ofBytes (headerBytes e q))
  refine ⟨hsize, hprotocol, htransaction, htarget, hsite, hack, htime, hkind, htail, fun i hi => ?_⟩
  rw [read_ofBytes, List.getElem?_eq_none (by rw [headerBytes_length]; exact hi)]

/-! The payload formats (rules R171 to R175). -/

/-- A format on the encoder commits a frame that holds the payload bytes from offset 36 on and is elsewhere as the
header writes left it. -/
theorem exec_atEncodePayload (s : State) (e : EncSample) (p : Payload) (out : Mem) (hs : s.atEncodePayload e p out) :
    ∃ frame, exec p.variant s = .next (commitEncode (36 + p.len) frame s) ∧
      frame.readRange 36 (payloadBytes p).length = some (payloadBytes p) ∧
      ∀ a, ¬(36 ≤ a ∧ a < 36 + p.len) → frame.read a = out.read a := by
  obtain ⟨hm, hu, hp⟩ := hs
  refine ⟨_, exec_on_encoder s e out p hm hu hp, readRange_memWriteBytes .., fun a ha => ?_⟩
  rw [read_memWriteBytes, payloadBytes_length, if_neg ha]

/-- A format without fields commits the header bytes as they are. -/
theorem exec_atEncodePayload_fieldless (s : State) (e : EncSample) (p : Payload) (out : Mem)
    (hs : s.atEncodePayload e p out) (hbytes : payloadBytes p = []) :
    exec p.variant s = .next (commitEncode 36 out s) := by
  obtain ⟨hm, hu, hp⟩ := hs
  rw [exec_on_encoder s e out p hm hu hp, ← payloadBytes_length, hbytes]
  rfl

/-- What `illFormed` says of each payload (rule R180). -/
theorem illFormed_eq_true (e : EncSample) :
    illFormed e = true ↔ 4096 ≤ e.version.toNat ∨ e.payload = none ∨
      ∃ k, e.payload = some (.empty k) ∧ k ∈ [32, 33, 34, 35, 107] := by
  unfold illFormed
  cases hp : e.payload with
  | none => simp
  | some p => cases p <;> simp [tableKind, or_assoc]

/-- Settles O31: the three formats have no payload byte, and an Empty of a table kind is ill-formed. -/
theorem fieldlessFormatsEncode : Obligations.FieldlessFormatsEncode := by
  refine ⟨fun s e out hs => exec_atEncodePayload_fieldless s e _ out hs rfl,
    fun s e out hs => exec_atEncodePayload_fieldless s e _ out hs rfl,
    fun s e k out hs => exec_atEncodePayload_fieldless s e _ out hs rfl,
    fun e k hp hk => ?_, fun r => ⟨rfl, rfl⟩, rfl, rfl, fun k => rfl⟩
  rw [beginEncode_illFormed e ((illFormed_eq_true e).2 (.inr (.inr ⟨k, hp, hk⟩)))]

/-- Settles O32: the 12 payload bytes are three `u32` one behind the other. -/
theorem stateVersionEncodes : Obligations.StateVersionEncodes := by
  intro s e vendor product version out hs
  obtain ⟨frame, hexec, hbytes, hframe⟩ := exec_atEncodePayload s e _ out hs
  simp only [payloadBytes, List.append_assoc, readRange_append, leBytes_length, Nat.reduceAdd] at hbytes
  obtain ⟨hvendor, hproduct, hversion⟩ := hbytes
  exact ⟨rfl, frame, hexec, hvendor, hproduct, hversion, hframe⟩

/-- Settles O33: the 24 payload bytes are three `u64` one behind the other. -/
theorem stateInfoEncodes : Obligations.StateInfoEncodes := by
  intro s e time uptime downtime out hs
  obtain ⟨frame, hexec, hbytes, hframe⟩ := exec_atEncodePayload s e _ out hs
  simp only [payloadBytes, List.append_assoc, readRange_append, leBytes_length, Nat.reduceAdd] at hbytes
  obtain ⟨htime, huptime, hdowntime⟩ := hbytes
  exact ⟨rfl, frame, hexec, htime, huptime, hdowntime, hframe⟩

/-! Ill-formed requests (rule R180). -/

/-- The tag register of a sampled payload holds the tag of its variant (rule R33). -/
theorem holdPayload_some_ptag (r : EncRegs) (p : Payload) (h : r.holdPayload (some p)) : r.ptag = .holds p.tag := by
  cases p with
  | empty => exact h.1
  | deviceGetVersion => exact h
  | deviceStateVersion => exact h.1
  | deviceGetInfo => exact h
  | deviceStateInfo => exact h.1
  | lightState => exact h.1

/-- No payload is sampled exactly when the tag is reserved. -/
theorem holdPayload_eq_none_iff (r : EncRegs) (p : Option Payload) (g : BitVec 3) (h : r.holdPayload p)
    (hg : r.ptag = .holds g) : p = none ↔ g = 6 ∨ g = 7 := by
  cases p with
  | none => simpa [EncRegs.holdPayload, hg] using h
  | some p =>
    obtain rfl : g = p.tag := by simpa [hg] using holdPayload_some_ptag r p h
    cases p <;> simp [Payload.tag]

/-- An Empty of a kind is sampled exactly when the tag is 0 and the kind input holds it. -/
theorem holdPayload_eq_empty_iff (r : EncRegs) (p : Option Payload) (g : BitVec 3) (k : BitVec 16)
    (h : r.holdPayload p) (hg : r.ptag = .holds g) : p = some (.empty k) ↔ g = 0 ∧ r.emptyKind = .holds k := by
  cases p with
  | none =>
    obtain rfl | rfl : g = 6 ∨ g = 7 := (holdPayload_eq_none_iff r none g h hg).1 rfl
    · simp
    · simp
  | some p =>
    obtain rfl : g = p.tag := by simpa [hg] using holdPayload_some_ptag r p h
    cases p
    case empty kind => simp [Payload.tag, h.2]
    all_goals simp [Payload.tag]

/-- The condition of rule R180, in terms of the registers that an ENCODE samples. -/
theorem illFormed_iff_registers (r : EncRegs) (e : EncSample) (v : BitVec 16) (g : BitVec 3) (h : r.hold e)
    (hv : r.version = .holds v) (hg : r.ptag = .holds g) :
    illFormed e = true ↔ 4096 ≤ v.toNat ∨ g = 6 ∨ g = 7 ∨
      (g = 0 ∧ ∃ k, r.emptyKind = .holds k ∧ k ∈ [32, 33, 34, 35, 107]) := by
  obtain ⟨hversion, -, -, -, -, -, -, hpayload⟩ := h
  obtain rfl : e.version = v := by simpa [hv] using hversion.symm
  simp only [illFormed_eq_true, holdPayload_eq_none_iff r e.payload g hpayload hg,
    holdPayload_eq_empty_iff r e.payload g _ hpayload hg, or_assoc, and_assoc, exists_and_left]

/-- An ENCODE request of a ready encoder starts the transaction of its sampled inputs (rules R43, R160). -/
theorem exec_encode_ready (s : State) (e : EncSample) (h : s.encodeReady e) :
    exec .encode s = .next { s with encUnit := .inFlight (beginEncode e) } := by
  obtain ⟨hu, hsample⟩ := (encodeReady_iff s e).1 h
  simp only [exec, execEncode, hu, hsample]

/-- An ill-formed ENCODE reports its error at its completion and does nothing else (rules R180, R193). -/
theorem transact_encode_illFormed (s : State) (e : EncSample) (h : s.encodeReady e) (hill : illFormed e = true) :
    transact .encode .enc s = .next (raiseError .enc s) := by
  simp only [transact, exec_encode_ready s e h, beginEncode_illFormed e hill, unitMove, fetch, raiseError]

/-- A well-formed ENCODE commits its header bytes and its payload bytes (rules R160, R184). -/
theorem transact_encode_ok (s : State) (e : EncSample) (p : Payload) (h : s.encodeReady e) (hp : e.payload = some p)
    (hwf : illFormed e = false) :
    transact .encode .enc s = .next (commitEncode (36 + p.len) (Mem.ofBytes (headerBytes e p ++ payloadBytes p))
      { s with mover := .enc }) := by
  simp only [transact, exec_encode_ready s e h, beginEncode_ok e p hp hwf, unitMove, fetch, hp]
  rw [exec_on_encoder _ e _ p rfl rfl hp, memWriteBytes_ofBytes _ _ 36 (headerBytes_length e p).symm]
  rfl

/-- Settles O30: an ENCODE completes with the error status exactly when its sample is ill-formed, which the registers
tell; the reads that follow are those of an encoder whose status is not OK. -/
theorem illFormedCondition : Obligations.IllFormedCondition := by
  intro s e v g hready hv hg
  rw [← illFormed_iff_registers s.encIn e v g hready.2 hv hg]
  cases hill : illFormed e with
  | true =>
    refine ⟨_, transact_encode_illFormed s e hready hill, by simp, fun _ => ⟨?_, fun i hi => ?_⟩⟩
    · exact hostReadReg_encLen_unspecified _ rfl (by simp)
    · exact hostReadReg_encOut_unspecified _ i rfl hi (by simp)
  | false =>
    obtain ⟨-, p, hp, -⟩ := (illFormed_eq_false e).1 hill
    exact ⟨_, transact_encode_ok s e p hready hp hill, by simp, by simp⟩

end Sys2Proof.Machine
end

section
/-! PROOF. Errors and completion (60_exceptions.md rules R190 to R196): what a unit's move does at each stage of its
transaction, the reads that fail alike on any two inputs, and the completion of every DECODE and every ENCODE. -/

namespace Sys2Proof.Machine

/-! A unit's move, by the stage of its transaction. -/

/-- A DECODE whose header stage raised an error reports it (rule R193). -/
theorem unitMove_dec_raised (s : State) (input : List Byte) (cur : Nat) (e : TruncatedInput)
    (hu : s.decUnit = .inFlight ⟨input, cur, .raised e⟩) : unitMove .dec s = .next (raiseError .dec s) := by
  simp only [unitMove, fetch, hu]

/-- A DECODE at its payload stage runs the format that the kind selects (rule R122). -/
theorem unitMove_dec_payload (s : State) (input : List Byte) (cur : Nat) (h : Header) (win : Nat)
    (hu : s.decUnit = .inFlight ⟨input, cur, .payload h win⟩) :
    unitMove .dec s = exec (decodeKind h.kind) { s with mover := .dec } := by
  simp only [unitMove, fetch, hu]

/-- An ill-formed ENCODE reports its error (rules R180, R193). -/
theorem unitMove_enc_illFormed (s : State) (e : EncSample) (hu : s.encUnit = .inFlight ⟨e, .illFormed⟩) :
    unitMove .enc s = .next (raiseError .enc s) := by
  simp only [unitMove, fetch, hu]

/-- A DECODE at its payload stage with a window that is too short reports TruncatedInput (rule R193). -/
theorem unitMove_atDecodePayload_short (s : State) (input : List Byte) (h : Header) (win : Nat)
    (hs : s.atDecodePayload input h win) (hshort : win < payloadLen (decodeKind h.kind)) :
    unitMove .dec s = .next (raiseError .dec s) := by
  have ⟨hm, ⟨cur, hu⟩, _, _⟩ := hs
  have hsame : { s with mover := .dec } = s := by rw [← hm]
  rw [unitMove_dec_payload s input cur h win hu, hsame, exec_atDecodePayload_short s input h win hs hshort]

/-! Short reads. A read in the payload window fails by the window length alone, so that two sequences of reads agree on
any two inputs as long as they end in the same short read (rule R193). -/

section ShortWindow

variable {α : Type} {input input' : List Byte} {win : Nat} (hin : 36 + win ≤ input.length)
  (hin' : 36 + win ≤ input'.length)
include hin hin'

theorem pRead_bind_congr {w n : Nat} {f g : Nat → Except TruncatedInput α}
    (hrest : w + n ≤ win → ∀ v v', f v = g v') : (pRead input win w n >>= f) = (pRead input' win w n >>= g) := by
  rcases Nat.lt_or_ge win (w + n) with hshort | hfits
  · rw [pRead_error input win w n hshort, pRead_error input' win w n hshort]
    rfl
  · rw [pRead_ok input win w n hfits (by omega) (by omega), pRead_ok input' win w n hfits (by omega) (by omega)]
    exact hrest hfits _ _

theorem pReadBytes_bind_congr {w n : Nat} {f g : Bytes n → Except TruncatedInput α}
    (hrest : w + n ≤ win → ∀ v v', f v = g v') :
    (pReadBytes input win w n >>= f) = (pReadBytes input' win w n >>= g) := by
  rcases Nat.lt_or_ge win (w + n) with hshort | hfits
  · rw [pReadBytes, if_pos hshort, pReadBytes, if_pos hshort]
    rfl
  · rw [pReadBytes_ok input win w n hfits (by omega) (by omega),
      pReadBytes_ok input' win w n hfits (by omega) (by omega)]
    exact hrest hfits _ _

theorem readStateVersion_short_congr (hshort : win < 12) :
    readStateVersion input win = readStateVersion input' win := by
  iterate 2 refine pRead_bind_congr hin hin' fun _ _ _ => ?_
  exact pRead_bind_congr hin hin' fun hfits => absurd hfits (Nat.not_le.2 hshort)

theorem readStateInfo_short_congr (hshort : win < 24) : readStateInfo input win = readStateInfo input' win := by
  iterate 2 refine pRead_bind_congr hin hin' fun _ _ _ => ?_
  exact pRead_bind_congr hin hin' fun hfits => absurd hfits (Nat.not_le.2 hshort)

theorem readLightState_short_congr (hshort : win < 52) : readLightState input win = readLightState input' win := by
  iterate 6 refine pRead_bind_congr hin hin' fun _ _ _ => ?_
  refine pReadBytes_bind_congr hin hin' fun _ _ _ => ?_
  exact pRead_bind_congr hin hin' fun hfits => absurd hfits (Nat.not_le.2 hshort)

end ShortWindow

/-- The error of a short header tells the length of the input and nothing else of it. -/
theorem headerStage_short_congr (input input' : List Byte) (hlen : input.length = input'.length)
    (hshort : input.length < 36) : headerStage input = headerStage input' := by
  rw [headerStage_error input hshort, headerStage_error input' (hlen ▸ hshort), hlen]

/-- Settles O20: each raise is `raiseError`, after which the status is not OK, so that no result is specified; the reads
up to the short one succeed or fail by lengths alone. -/
theorem raiseEffect : Obligations.RaiseEffect := by
  refine ⟨fun s input cur e hu => ⟨_, unitMove_dec_raised s input cur e hu⟩,
    fun s input h win hs hshort => ⟨_, unitMove_atDecodePayload_short s input h win hs hshort⟩,
    fun s e hu => ⟨_, _, unitMove_enc_illFormed s e hu⟩, fun s r hu hs => ?decRead, fun s hu hs => ?encReads,
    headerStage_short_congr, fun input input' win hin hin' => ⟨readStateVersion_short_congr hin hin',
      readStateInfo_short_congr hin hin', readLightState_short_congr hin hin'⟩⟩
  case decRead =>
    exact hostReadReg_dec_unspecified s r hu (by simp [hs])
  case encReads =>
    exact ⟨hostReadReg_encLen_unspecified s hu (by simp [hs]),
      fun i hi => hostReadReg_encOut_unspecified s i hu hi (by simp [hs])⟩

/-! Completion (rule R196). -/

/-- A ready decoder samples the bytes that its inputs hold. -/
theorem sampleDecode_ready (s : State) (b : List Byte) (h : s.decodeReady b) : sampleDecode s = some b := by
  obtain ⟨-, hlen, hbytes⟩ := h
  simp only [sampleDecode, hlen, input_get?_holds]
  exact (readRange_eq_some ..).2 ⟨rfl, by simpa only [Nat.zero_add] using hbytes⟩

/-- A DECODE request of a ready decoder starts the transaction of its sampled bytes (rules R43, R124). -/
theorem exec_decode_ready (s : State) (b : List Byte) (h : s.decodeReady b) :
    exec .decode s = .next { s with decUnit := .inFlight (beginDecode b) } := by
  simp only [exec, execDecode, h.1, sampleDecode_ready s b h]

/-- A DECODE of fewer than 36 bytes reports TruncatedInput and does nothing else (rules R123, R193). -/
theorem transact_decode_short (s : State) (b : List Byte) (h : s.decodeReady b) (hlen : b.length < 36) :
    transact .decode .dec s = .next (raiseError .dec s) := by
  simp only [transact, exec_decode_ready s b h, beginDecode_short b hlen]
  exact unitMove_dec_raised _ b _ _ rfl

/-- A DECODE of 36 bytes or more commits the frame if the window holds the payload, and else reports TruncatedInput
(rules R125, R193). -/
theorem transact_decode_whole (s : State) (b : List Byte) (h : s.decodeReady b) (hlen : 36 ≤ b.length) :
    transact .decode .dec s = .next
      (if kindLen (frameHeader b).kind ≤ frameWindow b then
        commitDecode (frameHeader b) (frameWindow b) (framePayload (frameHeader b).kind b) { s with mover := .dec }
      else raiseError .dec { s with mover := .dec }) := by
  have hwin : frameWindow b ≤ b.length - 36 := Nat.min_le_right ..
  simp only [transact, exec_decode_ready s b h, beginDecode_ok b hlen]
  rw [unitMove_dec_payload _ b 36 (frameHeader b) (frameWindow b) rfl, exec_on_decoder _ b 36 _ _ rfl rfl hlen hwin]
  split_ifs <;> rfl

/-- Settles O49: an outcome is either a commit or a raise, and both leave the unit idle and write its status. -/
theorem everyTransactionCompletes : Obligations.EveryTransactionCompletes := by
  refine ⟨fun s b hready => ?decode, fun s e hready => ?encode⟩
  case decode =>
    rcases Nat.lt_or_ge b.length 36 with hshort | hlen
    · exact ⟨_, transact_decode_short s b hready hshort, rfl, .inr rfl⟩
    · refine ⟨_, transact_decode_whole s b hready hlen, ?_⟩
      split_ifs
      · exact ⟨rfl, .inl rfl⟩
      · exact ⟨rfl, .inr rfl⟩
  case encode =>
    cases hill : illFormed e with
    | true => exact ⟨_, transact_encode_illFormed s e hready hill, rfl, .inr rfl⟩
    | false =>
      obtain ⟨-, p, hp, -⟩ := (illFormed_eq_false e).1 hill
      exact ⟨_, transact_encode_ok s e p hready hp hill, rfl, .inl rfl⟩

end Sys2Proof.Machine
end

section
/-! PROOF. Instruction words (30_encoding.md rules R85, R95, R101) and little-endian integers (20_memory.md rule R62): the
word of a kind is its two bytes, and every two bytes are the word of one kind. -/

namespace Sys2Proof.Machine

/-! Words of a kind. -/

/-- The two bytes of a kind decode to the format that the kind selects. -/
theorem decodeBytes_kindBytes (k : BitVec 16) (rest : List Byte) :
    decodeBytes .kind16 (leBytes 2 k.toNat ++ rest) = .ok ([decodeKind k], rest) := by
  have hk : BitVec.ofNat 16 (leNat (leBytes 2 k.toNat)) = k := by
    rw [leNat_leBytes 2 _ k.isLt, BitVec.ofNat_toNat, BitVec.setWidth_eq]
  exact congrArg (fun k => Except.ok ([decodeKind k], rest)) hk

/-- The format that a kind selects is well-formed, has a KIND16 word, and its word is the kind (rule R95). -/
theorem decodeKind_word (k : BitVec 16) :
    (decodeKind k).wellFormed = true ∧ (decodeKind k).format = .kind16 ∧ (decodeKind k).code = k.toNat := by
  rcases decodeKind_cases k with ⟨rfl, h⟩ | ⟨rfl, h⟩ | ⟨rfl, h⟩ | ⟨rfl, h⟩ | ⟨rfl, h⟩ | ⟨h1, h2, h3, h4, h5, h⟩
  case inr.inr.inr.inr.inr =>
    have hk : tableKind k = false := (tableKind_eq_false k).2 ⟨h1, h2, h3, h4, h5⟩
    rw [h, Instr.wellFormed, hk]
    exact ⟨rfl, rfl, rfl⟩
  all_goals
    rw [h]
    exact ⟨rfl, rfl, rfl⟩

/-- Settles O5: a payload format's word is its kind, which selects it; a request's word is its bit. -/
theorem decodeOfEncode : Obligations.DecodeOfEncode := by
  intro i rest hwf
  cases i with
  | deviceGetVersion => exact decodeBytes_kindBytes 32 rest
  | deviceStateVersion => exact decodeBytes_kindBytes 33 rest
  | deviceGetInfo => exact decodeBytes_kindBytes 34 rest
  | deviceStateInfo => exact decodeBytes_kindBytes 35 rest
  | lightState => exact decodeBytes_kindBytes 107 rest
  | empty k =>
    have hk : decodeKind k = .empty k := decodeKind_kind (.empty k) hwf
    exact (decodeBytes_kindBytes k rest).trans (by rw [hk])
  | decode => rfl
  | encode => rfl

/-- Settles O6: the format is the one that the two bytes, taken as a kind, select. -/
theorem everyKindWordIsOneFormat : Obligations.EveryKindWordIsOneFormat := by
  intro lo hi rest
  obtain ⟨hwf, hformat, hcode⟩ := decodeKind_word (BitVec.ofNat 16 (leNat [lo, hi]))
  have hlt : leNat [lo, hi] < 2 ^ 16 := by rw [leNat_pair]; omega
  refine ⟨decodeKind (BitVec.ofNat 16 (leNat [lo, hi])), rfl, hwf, hformat, ?_⟩
  rw [encodeInstr, hformat, hcode, BitVec.toNat_ofNat, Nat.mod_eq_of_lt hlt]
  exact leBytes_leNat [lo, hi]

/-- Settles O3: each single word is a case of `decodeOfEncode`; the request vectors are read bit by bit. -/
theorem specWordsDecode : Obligations.SpecWordsDecode :=
  ⟨decodeOfEncode .deviceGetVersion [] rfl, decodeOfEncode .deviceStateVersion [] rfl, decodeOfEncode .lightState [] rfl,
    decodeOfEncode (.empty 8192) [] rfl, decodeOfEncode (.empty 363) [] rfl, decodeOfEncode .decode [] rfl,
    decodeOfEncode .encode [] rfl, rfl⟩

/-! Little-endian integers. -/

/-- The bytes of a natural are its base-256 digits, the lowest first. -/
theorem leBytes_getElem? (n v k : Nat) (h : k < n) : (leBytes n v)[k]? = some (BitVec.ofNat 8 (v / 256 ^ k)) := by
  induction n generalizing v k with
  | zero => omega
  | succ n ih =>
    cases k with
    | zero => simp [leBytes]
    | succ k =>
      rw [leBytes, List.getElem?_cons_succ, ih (v / 256) k (by omega), Nat.div_div_eq_div_mul, Nat.pow_succ']

/-- The base-256 digits of a little-endian value are its bytes. -/
theorem getElem?_eq_leNat_digit (bs : List Byte) (k : Nat) (h : k < bs.length) :
    bs[k]? = some (BitVec.ofNat 8 (leNat bs / 256 ^ k)) := by
  rw [← leBytes_getElem? bs.length _ k h, leBytes_leNat]

/-- Settles O14: a read is the value of its bytes, a write leaves the bytes of its value. -/
theorem littleEndianReadsAndWrites : Obligations.LittleEndianReadsAndWrites := by
  refine ⟨fun input off n hin => ⟨_, memRead_ok input off n hin, frameNat_lt .., fun k hk => ?read⟩,
    fun off n v m _ k hk => ?write⟩
  case read =>
    have hlen : ((input.drop off).take n).length = n := by simp; omega
    rw [frameNat, ← getElem?_eq_leNat_digit _ k (by omega), List.getElem?_take_of_lt hk, List.getElem?_drop]
  case write =>
    rw [memWrite, read_memWriteBytes, leBytes_length, if_pos (by omega), Nat.add_sub_cancel_left, leBytes_getElem? n v k hk]

end Sys2Proof.Machine
end

section
/-! PROOF. The codec as two functions (10_state.md rule R25): the fields of an encoded frame, the round trip of a valid
message (42_serialize.md rule R181), and a decoded frame encoded again (rules R88, R182). -/

namespace Sys2Proof.Machine

/-! A frame held in a buffer. The fields of a frame are ranges of its buffer. -/

theorem slice_of_readRange (b : List Byte) (off n : Nat) (x : List Byte)
    (h : (Mem.ofBytes b).readRange off n = some x) : (b.drop off).take n = x := by
  obtain ⟨hlen, hread⟩ := (readRange_eq_some ..).1 h
  refine List.ext_getElem? fun i => ?_
  rcases Nat.lt_or_ge i n with hi | hi
  · rw [List.getElem?_take_of_lt hi, List.getElem?_drop, ← hread i hi, read_ofBytes]
  · rw [List.getElem?_eq_none (by simp; omega), List.getElem?_eq_none (by omega)]

theorem frameNat_of_readRange (b : List Byte) (off n v : Nat)
    (h : (Mem.ofBytes b).readRange off n = some (leBytes n v)) (hv : v < 256 ^ n) : frameNat b off n = v := by
  rw [frameNat, slice_of_readRange b off n _ h, leNat_leBytes n v hv]

theorem frameBytes_of_readRange (b : List Byte) (off n : Nat) (x : Bytes n)
    (h : (Mem.ofBytes b).readRange off n = some x.toList) : frameBytes b off n = x := by
  have hslice : (b.drop off).takeD n 0 = x.toList := by
    rw [← takeD_take, slice_of_readRange b off n _ h, takeD_eq_take _ _ (Nat.le_of_eq x.length_eq.symm),
      List.take_of_length_le (Nat.le_of_eq x.length_eq)]
  cases x
  simp only [frameBytes, Bytes.mk.injEq]
  exact hslice

theorem readRange_slice (b : List Byte) (off n : Nat) (h : off + n ≤ b.length) :
    (Mem.ofBytes b).readRange off n = some ((b.drop off).take n) := by
  refine (readRange_eq_some ..).2 ⟨by simp; omega, fun i hi => ?_⟩
  rw [read_ofBytes, List.getElem?_take_of_lt hi, List.getElem?_drop]

/-- The bytes of an integer field are those of its value. -/
theorem slice_eq_leBytes (b : List Byte) (off n : Nat) (h : off + n ≤ b.length) :
    (b.drop off).take n = leBytes n (frameNat b off n) := by
  have hlen : ((b.drop off).take n).length = n := by simp; omega
  have hbytes := leBytes_leNat ((b.drop off).take n)
  rw [hlen] at hbytes
  exact hbytes.symm

theorem readRange_frameNat (b : List Byte) (off n : Nat) (h : off + n ≤ b.length) :
    (Mem.ofBytes b).readRange off n = some (leBytes n (frameNat b off n)) := by
  rw [readRange_slice b off n h, slice_eq_leBytes b off n h]

theorem frameBytes_toList (b : List Byte) (off n : Nat) (h : off + n ≤ b.length) :
    (frameBytes b off n).toList = leBytes n (frameNat b off n) := by
  rw [← slice_eq_leBytes b off n h]
  exact takeD_eq_take _ _ (by simp; omega)

/-- A register as wide as its field holds the field's value. -/
theorem ofNat_frameNat_toNat (b : List Byte) (off n w : Nat) (hw : w = 8 * n) :
    (BitVec.ofNat w (frameNat b off n)).toNat = frameNat b off n := by
  have hlt : frameNat b off n < 2 ^ w := by
    rw [hw, Nat.pow_mul]
    exact frameNat_lt b off n
  rw [BitVec.toNat_ofNat, Nat.mod_eq_of_lt hlt]

/-! The header of an encoded frame. -/

/-- The bit fields of a frame's header are those of its two bitfields (rules R89, R111, R112, R117). -/
theorem frameHeader_bitfields (b : List Byte) :
    (frameHeader b).version = protocolVersion (BitVec.ofNat 16 (frameNat b 2 2)) ∧
    (frameHeader b).addressable = protocolAddressable (BitVec.ofNat 16 (frameNat b 2 2)) ∧
    (frameHeader b).tagged = protocolTagged (BitVec.ofNat 16 (frameNat b 2 2)) ∧
    (frameHeader b).acknowledge = ackAcknowledge (BitVec.ofNat 16 (frameNat b 22 2)) := by
  refine ⟨(protocolVersion_ofNat _).symm, (getLsbD_ofNat_div _ 12 (by omega)).symm,
    (getLsbD_ofNat_div _ 13 (by omega)).symm, ?_⟩
  rw [ackAcknowledge, getLsbD_ofNat_div _ 0 (by omega), Nat.pow_zero, Nat.div_one]
  rfl

theorem kindLen_le (k : BitVec 16) : kindLen k ≤ 52 := by
  rw [kindLen_eq]
  split_ifs <;> omega

/-- The header of an encoded frame, field by field (rules R161 to R169). -/
theorem frameHeader_encoded (e : EncSample) (p : Payload) (hv : e.version.toNat < 4096) :
    frameHeader (headerBytes e p ++ payloadBytes p) = {
      size := BitVec.ofNat 16 (36 + kindLen p.kind), version := e.version.setWidth 12, addressable := e.addressable,
      tagged := e.tagged, target := e.target, site := e.site, acknowledge := e.acknowledge, atTime := e.atTime,
      kind := p.kind } := by
  generalize hb : headerBytes e p ++ payloadBytes p = b
  have hheader : (Mem.ofBytes b).readRange 0 (headerBytes e p).length = some (headerBytes e p) := by
    rw [← hb]
    exact ((readRange_append ..).1 (readRange_ofBytes _)).1
  obtain ⟨hsize, hprotocol, -, htarget, hsite, hack, htime, hkind, -⟩ := readRange_headerBytes e p _ hheader
  have hlen := kindLen_le p.kind
  rw [← packProtocol_toNat _ _ _ hv] at hprotocol
  rw [← packAck_toNat] at hack
  obtain ⟨hversion, haddr, htagged, hacknowledge⟩ := frameHeader_bitfields b
  rw [frameNat_of_readRange _ _ _ _ hprotocol (BitVec.isLt _), BitVec.ofNat_toNat, BitVec.setWidth_eq]
    at hversion haddr htagged
  rw [frameNat_of_readRange _ _ _ _ hack (BitVec.isLt _), BitVec.ofNat_toNat, BitVec.setWidth_eq] at hacknowledge
  have hpack : protocolVersion (packProtocol e.version e.addressable e.tagged) = e.version.setWidth 12 :=
    BitVec.eq_of_toNat_eq ((protocolVersion_packProtocol_toNat ..).trans (BitVec.toNat_setWidth 12 e.version).symm)
  rw [hpack] at hversion
  rw [protocolAddressable_packProtocol] at haddr
  rw [protocolTagged_packProtocol] at htagged
  rw [ackAcknowledge_packAck] at hacknowledge
  have hkindField : (frameHeader b).kind = p.kind := by
    simp [frameHeader, frameNat_of_readRange _ _ _ _ hkind p.kind.isLt]
  have htimeField : (frameHeader b).atTime = e.atTime := by
    simp [frameHeader, frameNat_of_readRange _ _ _ _ htime e.atTime.isLt]
  have hsizeField : (frameHeader b).size = BitVec.ofNat 16 (36 + kindLen p.kind) :=
    congrArg (BitVec.ofNat 16) (frameNat_of_readRange b 0 2 _ hsize (by omega))
  rw [← hsizeField, ← hversion, ← haddr, ← htagged, ← hacknowledge, ← htimeField, ← hkindField,
    ← frameBytes_of_readRange b 8 8 _ htarget, ← frameBytes_of_readRange b 16 6 _ hsite]
  rfl

/-- The payload of an encoded frame (rules R171 to R176). -/
theorem framePayload_encoded (e : EncSample) (p : Payload) (hp : p.variant.wellFormed = true) :
    framePayload p.kind (headerBytes e p ++ payloadBytes p) = p := by
  generalize hb : headerBytes e p ++ payloadBytes p = b
  have hpayload : (Mem.ofBytes b).readRange 36 (payloadBytes p).length = some (payloadBytes p) := by
    rw [← hb]
    simpa only [headerBytes_length, Nat.zero_add] using
      ((readRange_append _ 0 (headerBytes e p) (payloadBytes p)).1 (readRange_ofBytes _)).2
  have hnat := fun off n v h => frameNat_of_readRange b off n v h
  cases p with
  | empty k => exact framePayload_empty k b (by simpa [Payload.variant, Instr.wellFormed] using hp)
  | deviceGetVersion => rfl
  | deviceStateVersion vendor product version =>
    simp only [payloadBytes, List.append_assoc, readRange_append, leBytes_length, Nat.reduceAdd] at hpayload
    obtain ⟨h1, h2, h3⟩ := hpayload
    simp [Payload.kind, framePayload, hnat _ _ _ h1 vendor.isLt, hnat _ _ _ h2 product.isLt, hnat _ _ _ h3 version.isLt]
  | deviceGetInfo => rfl
  | deviceStateInfo time uptime downtime =>
    simp only [payloadBytes, List.append_assoc, readRange_append, leBytes_length, Nat.reduceAdd] at hpayload
    obtain ⟨h1, h2, h3⟩ := hpayload
    simp [Payload.kind, framePayload, hnat _ _ _ h1 time.isLt, hnat _ _ _ h2 uptime.isLt, hnat _ _ _ h3 downtime.isLt]
  | lightState color dim power label tags =>
    simp only [payloadBytes, List.append_assoc, readRange_append, leBytes_length, label.length_eq, Nat.reduceAdd]
      at hpayload
    obtain ⟨h1, h2, h3, h4, h5, h6, h7, h8⟩ := hpayload
    simp [Payload.kind, framePayload, hnat _ _ _ h1 color.hue.isLt, hnat _ _ _ h2 color.saturation.isLt,
      hnat _ _ _ h3 color.brightness.isLt, hnat _ _ _ h4 color.kelvin.isLt, hnat _ _ _ h5 dim.isLt,
      hnat _ _ _ h6 power.isLt, frameBytes_of_readRange b 48 32 label h7, hnat _ _ _ h8 tags.isLt]

/-! The round trip (rule R181). -/

/-- What `Message.valid` says. -/
theorem valid_iff (m : Message) :
    m.valid = true ↔ m.header.kind = m.payload.kind ∧ m.payload.variant.wellFormed = true ∧
      m.header.size.toNat = 36 + kindLen m.payload.kind := by
  simp [Message.valid, and_assoc]

/-- The encode function on a request that is not ill-formed. -/
theorem encodeFrame_ok (e : EncSample) (p : Payload) (hp : e.payload = some p) (h : illFormed e = false) :
    encodeFrame e = some (headerBytes e p ++ payloadBytes p) := by
  simp [encodeFrame, hp, h]

/-- An ill-formed sample is not encoded. -/
theorem encodeFrame_illFormed (e : EncSample) (h : illFormed e = true) : encodeFrame e = none := by
  cases hp : e.payload <;> simp [encodeFrame, hp, h]

/-- The sample of a message with a well-formed payload is not ill-formed: its version has 12 bits by its type. -/
theorem illFormed_sample (m : Message) (h : m.payload.variant.wellFormed = true) : illFormed m.sample = false := by
  have hlt := m.header.version.isLt
  refine (illFormed_eq_false _).2 ⟨?_, m.payload, rfl, h⟩
  rw [Message.sample, BitVec.toNat_setWidth]
  omega

/-- Decoding the encoded frame of a valid message gives the message. -/
theorem decodeFrame_encoded (m : Message) (h : m.valid = true) :
    decodeFrame (headerBytes m.sample m.payload ++ payloadBytes m.payload) = some (m, m.payload.len) := by
  obtain ⟨hkind, hwf, hsize⟩ := (valid_iff m).1 h
  have hlen := len_eq_kindLen m.payload hwf
  have hheader : frameHeader (headerBytes m.sample m.payload ++ payloadBytes m.payload) = m.header := by
    rw [frameHeader_encoded m.sample m.payload ((illFormed_eq_false _).1 (illFormed_sample m hwf)).1, ← hsize, ← hkind]
    simp [Message.sample]
  have hwindow : frameWindow (headerBytes m.sample m.payload ++ payloadBytes m.payload) = m.payload.len := by
    rw [frameWindow, hheader, hsize, List.length_append, headerBytes_length, payloadBytes_length, hlen]
    omega
  rw [decodeFrame, hwindow, hheader, hkind, ← hlen, framePayload_encoded _ _ hwf, if_pos]
  simp [headerBytes_length]

/-- Settles O37: the frame is the header bytes and the payload bytes, whose fields decode to what was encoded. -/
theorem codecRoundTrip : Obligations.CodecRoundTrip := by
  intro m hvalid
  obtain ⟨-, hwf, -⟩ := (valid_iff m).1 hvalid
  exact ⟨_, encodeFrame_ok m.sample m.payload rfl (illFormed_sample m hwf), decodeFrame_encoded m hvalid⟩

end Sys2Proof.Machine
end

section
/-! PROOF. The wire content that a decode discards (30_encoding.md rules R82, R83, R88): a frame with the discarded bits
cleared decodes alike, and encoding what a frame decodes to gives the cleared frame back (42_serialize.md rule R182). -/

namespace Sys2Proof.Machine

/-! A frame with its discarded bits cleared. -/

/-- The frame with every bit that a decode discards set to zero. -/
def keptFrame (b : List Byte) : List Byte := b.mapIdx fun i x => x &&& keptBits i

theorem keptFrame_getElem? (b : List Byte) (i : Nat) : (keptFrame b)[i]? = b[i]?.map (· &&& keptBits i) :=
  List.getElem?_mapIdx

@[simp] theorem keptFrame_length (b : List Byte) : (keptFrame b).length = b.length := List.length_mapIdx

/-- Two frames agree in every kept bit exactly when they are one frame once cleared. -/
theorem sameKept_iff (b d : List Byte) : sameKept b d ↔ keptFrame b = keptFrame d := by
  simp only [sameKept, ← keptFrame_getElem?]
  exact ⟨List.ext_getElem?, fun h i => h ▸ rfl⟩

/-! The fields of a cleared frame. -/

/-- A byte outside the listed ones is kept whole. -/
theorem keptBits_whole (i : Nat) (h : i ∉ [3, 4, 5, 6, 7, 22, 23, 34, 35]) : keptBits i = 0xFF := by
  simp only [List.mem_cons, List.not_mem_nil, or_false, not_or] at h
  simp [keptBits, h]

theorem and_0xFF (x : Byte) : x &&& 0xFF = x := by
  rw [show (0xFF : Byte) = BitVec.allOnes 8 from rfl, BitVec.and_allOnes]

theorem keptFrame_slice (b : List Byte) (off n : Nat)
    (h : ∀ i ∈ [3, 4, 5, 6, 7, 22, 23, 34, 35], i < off ∨ off + n ≤ i) :
    ((keptFrame b).drop off).take n = (b.drop off).take n := by
  refine List.ext_getElem? fun i => ?_
  rcases Nat.lt_or_ge i n with hi | hi
  · have hwhole : keptBits (off + i) = 0xFF := keptBits_whole _ fun hmem => by
      rcases h _ hmem with hlt | hge <;> omega
    rw [List.getElem?_take_of_lt hi, List.getElem?_drop, List.getElem?_take_of_lt hi, List.getElem?_drop,
      keptFrame_getElem?, hwhole]
    simp only [and_0xFF, Option.map_id']
  · simp [Nat.not_lt.2 hi]

theorem frameNat_keptFrame (b : List Byte) (off n : Nat)
    (h : ∀ i ∈ [3, 4, 5, 6, 7, 22, 23, 34, 35], i < off ∨ off + n ≤ i) :
    frameNat (keptFrame b) off n = frameNat b off n :=
  congrArg leNat (keptFrame_slice b off n h)

theorem frameBytes_keptFrame (b : List Byte) (off n : Nat)
    (h : ∀ i ∈ [3, 4, 5, 6, 7, 22, 23, 34, 35], i < off ∨ off + n ≤ i) :
    frameBytes (keptFrame b) off n = frameBytes b off n := by
  simp only [frameBytes, Bytes.mk.injEq]
  rw [← takeD_take, keptFrame_slice b off n h, takeD_take]

theorem frameNat_pair (b : List Byte) (off : Nat) (h : off + 2 ≤ b.length) :
    frameNat b off 2 = b[off].toNat + 256 * b[off + 1].toNat := by
  rw [frameNat, List.drop_eq_getElem_cons (by omega), List.drop_eq_getElem_cons (by omega)]
  exact leNat_pair _ _

/-- The protocol bitfield loses its bits 15..14 (rule R82). -/
theorem frameNat_keptFrame_protocol (b : List Byte) (h : 4 ≤ b.length) :
    frameNat (keptFrame b) 2 2 = frameNat b 2 2 % 16384 := by
  have hmask : (b[3] &&& 0x3F).toNat = b[3].toNat % 64 := by
    rw [BitVec.toNat_and]
    exact Nat.and_two_pow_sub_one_eq_mod b[3].toNat 6
  have hlow : keptBits 2 = 0xFF := rfl
  have hhigh : keptBits 3 = 0x3F := rfl
  have hlt := b[2].isLt
  rw [frameNat_pair _ 2 (by simpa using h), frameNat_pair b 2 h]
  simp only [keptFrame, List.getElem_mapIdx, Nat.reduceAdd, hlow, hhigh, and_0xFF, hmask]
  omega

/-- The ack-bitfield keeps its bit 0 (rule R83). -/
theorem frameNat_keptFrame_ack (b : List Byte) (h : 24 ≤ b.length) :
    frameNat (keptFrame b) 22 2 = frameNat b 22 2 % 2 := by
  have hmask : (b[22] &&& 1).toNat = b[22].toNat % 2 := by
    rw [BitVec.toNat_and]
    exact Nat.and_two_pow_sub_one_eq_mod b[22].toNat 1
  have hlow : keptBits 22 = 1 := rfl
  have hhigh : keptBits 23 = 0 := rfl
  have hzero : (b[23] &&& 0).toNat = 0 := by simp
  rw [frameNat_pair _ 22 (by simpa using h), frameNat_pair b 22 h]
  simp only [keptFrame, List.getElem_mapIdx, Nat.reduceAdd, hlow, hhigh, hmask, hzero]
  omega

theorem leNat_eq_zero (l : List Byte) (h : ∀ x ∈ l, x = 0) : leNat l = 0 := by
  induction l with
  | nil => rfl
  | cons x l ih =>
    obtain ⟨rfl, hl⟩ := List.forall_mem_cons.1 h
    simp [leNat, ih hl]

/-- A field whose bytes are all discarded reads as zero. -/
theorem frameNat_keptFrame_discarded (b : List Byte) (off n : Nat) (h : ∀ i, i < n → keptBits (off + i) = 0) :
    frameNat (keptFrame b) off n = 0 := by
  refine leNat_eq_zero _ fun x hx => ?_
  obtain ⟨i, hi, rfl⟩ := List.mem_iff_getElem.1 hx
  simp only [List.length_take, List.length_drop] at hi
  simp [keptFrame, h i (by omega)]

/-! Decoding a cleared frame (rule R88). -/

theorem frameHeader_keptFrame (b : List Byte) (h : 36 ≤ b.length) : frameHeader (keptFrame b) = frameHeader b := by
  have hprotocol := frameNat_keptFrame_protocol b (by omega)
  have hack := frameNat_keptFrame_ack b (by omega)
  have hversion : BitVec.ofNat 12 (frameNat b 2 2 % 16384) = BitVec.ofNat 12 (frameNat b 2 2) :=
    BitVec.eq_of_toNat_eq (by simp)
  have haddr : frameNat b 2 2 % 16384 / 4096 % 2 = frameNat b 2 2 / 4096 % 2 := by omega
  have htagged : frameNat b 2 2 % 16384 / 8192 % 2 = frameNat b 2 2 / 8192 % 2 := by omega
  simp (disch := decide) only [frameHeader, hprotocol, hack, hversion, haddr, htagged, frameNat_keptFrame,
    frameBytes_keptFrame, Nat.mod_mod]

theorem framePayload_keptFrame (k : BitVec 16) (b : List Byte) :
    framePayload k (keptFrame b) = framePayload k b := by
  simp (disch := decide) only [framePayload, frameNat_keptFrame, frameBytes_keptFrame]

theorem decodeFrame_keptFrame (b : List Byte) : decodeFrame (keptFrame b) = decodeFrame b := by
  rcases Nat.lt_or_ge b.length 36 with hshort | hlen
  · simp [decodeFrame, Nat.not_le.2 hshort]
  · rw [decodeFrame, decodeFrame, frameWindow, frameWindow, frameHeader_keptFrame b hlen, framePayload_keptFrame,
      keptFrame_length]

theorem decodeFrame_congr_sameKept (b d : List Byte) (h : sameKept b d) : decodeFrame b = decodeFrame d := by
  rw [← decodeFrame_keptFrame b, (sameKept_iff b d).1 h, decodeFrame_keptFrame]

/-! Encoding a decoded frame (rule R182). -/

/-- What a successful decode says of a frame. -/
theorem decodeFrame_eq_some (b : List Byte) (m : Message) (win : Nat) :
    decodeFrame b = some (m, win) ↔ 36 ≤ b.length ∧ kindLen (frameHeader b).kind ≤ frameWindow b ∧
      m = ⟨frameHeader b, framePayload (frameHeader b).kind b⟩ ∧ win = frameWindow b := by
  rw [decodeFrame]
  split_ifs with h
  · simp [h, eq_comm]
  · simp only [false_iff]
    exact fun ⟨h1, h2, _⟩ => h ⟨h1, h2⟩

/-- The header bytes behind the size stand in a buffer exactly when each field does. -/
theorem headerBytes_fields (e : EncSample) (p : Payload) (m : Mem) :
    ∃ rest, headerBytes e p = leBytes 2 (36 + kindLen p.kind) ++ rest ∧
      (m.readRange 2 rest.length = some rest ↔
        m.readRange 2 2 = some (leBytes 2
          (e.version.toNat + (if e.addressable then 4096 else 0) + (if e.tagged then 8192 else 0))) ∧
        m.readRange 4 4 = some (leBytes 4 0) ∧ m.readRange 8 8 = some e.target.toList ∧
        m.readRange 16 6 = some e.site.toList ∧
        m.readRange 22 2 = some (leBytes 2 (if e.acknowledge then 1 else 0)) ∧
        m.readRange 24 8 = some (leBytes 8 e.atTime.toNat) ∧ m.readRange 32 2 = some (leBytes 2 p.kind.toNat) ∧
        m.readRange 34 2 = some (leBytes 2 0)) := by
  refine ⟨_, by simp only [headerBytes, List.append_assoc]; rfl, ?_⟩
  simp only [readRange_append, leBytes_length, Bytes.length_eq, Nat.reduceAdd]

/-- The bit fields of the protocol bitfield, put together again, are its bits 13..0. -/
theorem protocolFields_sum (x : Nat) :
    (BitVec.ofNat 12 x).toNat + (if x / 4096 % 2 == 1 then 4096 else 0) + (if x / 8192 % 2 == 1 then 8192 else 0) =
      x % 16384 := by
  simp only [BitVec.toNat_ofNat, beq_iff_eq]
  split_ifs <;> omega

theorem flag_sum (x : Nat) : (if x % 2 == 1 then 1 else 0) = x % 2 := by
  simp only [beq_iff_eq]
  split_ifs <;> omega

theorem readRange_zero (m : Mem) (off : Nat) : m.readRange off 0 = some [] := rfl

/-- The payload bytes of a frame's payload are the frame's (rules R171 to R176). -/
theorem readRange_framePayload (b : List Byte) (k : BitVec 16) (h : 36 + kindLen k ≤ b.length) :
    (Mem.ofBytes b).readRange 36 (payloadBytes (framePayload k b)).length = some (payloadBytes (framePayload k b)) := by
  rcases decodeKind_cases k with ⟨rfl, -⟩ | ⟨rfl, -⟩ | ⟨rfl, -⟩ | ⟨rfl, -⟩ | ⟨rfl, -⟩ | ⟨h1, h2, h3, h4, h5, -⟩
  case inr.inr.inr.inr.inr =>
    rw [framePayload_empty k b ((tableKind_eq_false k).2 ⟨h1, h2, h3, h4, h5⟩)]
    rfl
  all_goals
    simp only [kindLen, BitVec.reduceToNat] at h
    simp (disch := omega) only [framePayload, payloadBytes, BitVec.reduceToNat, List.append_assoc, readRange_append,
      leBytes_length, Nat.reduceAdd, ofNat_frameNat_toNat, frameBytes_toList, readRange_frameNat,
      List.length_nil, readRange_zero, and_self]

/-- Encoding what a frame decodes to gives the cleared frame from the protocol bitfield on, with the declared size that
the payload has. -/
theorem encoded_eq_keptFrame (b : List Byte) (hlen : 36 + kindLen (frameHeader b).kind ≤ b.length)
    (m : Message) (hm : m = ⟨frameHeader b, framePayload (frameHeader b).kind b⟩) :
    ∃ rest, headerBytes m.sample m.payload ++ payloadBytes m.payload = leBytes 2 (36 + kindLen m.payload.kind) ++ rest ∧
      (Mem.ofBytes (keptFrame b)).readRange 2 rest.length = some rest := by
  have hkind : m.payload.kind = (frameHeader b).kind := by rw [hm]; exact framePayload_kind _ b
  obtain ⟨rest, hrest, hfields⟩ := headerBytes_fields m.sample m.payload (Mem.ofBytes (keptFrame b))
  have hrestLen : 2 + rest.length = 36 := by simpa [headerBytes_length] using (congrArg List.length hrest).symm
  have hin : ∀ off n, off + n ≤ 36 → off + n ≤ (keptFrame b).length := fun off n h => by
    rw [keptFrame_length]; omega
  refine ⟨rest ++ payloadBytes m.payload, by rw [hrest, List.append_assoc], ?_⟩
  rw [readRange_append, hrestLen, hfields]
  subst hm
  refine ⟨⟨?protocol, ?transaction, ?target, ?site, ?ack, ?time, ?kind, ?tail⟩, ?payload⟩
  case protocol =>
    have hversion : (BitVec.setWidth 16 (frameHeader b).version).toNat = (frameHeader b).version.toNat := by
      have hlt := (frameHeader b).version.isLt
      rw [BitVec.toNat_setWidth, Nat.mod_eq_of_lt (by omega)]
    rw [readRange_frameNat _ 2 2 (hin 2 2 (by omega)), frameNat_keptFrame_protocol b (by omega), ← protocolFields_sum]
    simp only [Message.sample, hversion]
    rfl
  case transaction =>
    rw [readRange_frameNat _ 4 4 (hin 4 4 (by omega)), frameNat_keptFrame_discarded b 4 4 (by decide)]
  case target =>
    rw [readRange_frameNat _ 8 8 (hin 8 8 (by omega)), frameNat_keptFrame b 8 8 (by decide),
      ← frameBytes_toList b 8 8 (by omega)]
    rfl
  case site =>
    rw [readRange_frameNat _ 16 6 (hin 16 6 (by omega)), frameNat_keptFrame b 16 6 (by decide),
      ← frameBytes_toList b 16 6 (by omega)]
    rfl
  case ack =>
    rw [readRange_frameNat _ 22 2 (hin 22 2 (by omega)), frameNat_keptFrame_ack b (by omega), ← flag_sum]
    rfl
  case time =>
    rw [readRange_frameNat _ 24 8 (hin 24 8 (by omega)), frameNat_keptFrame b 24 8 (by decide),
      ← ofNat_frameNat_toNat b 24 8 64 rfl]
    rfl
  case kind =>
    rw [readRange_frameNat _ 32 2 (hin 32 2 (by omega)), frameNat_keptFrame b 32 2 (by decide), hkind,
      ← ofNat_frameNat_toNat b 32 2 16 rfl]
    rfl
  case tail =>
    rw [readRange_frameNat _ 34 2 (hin 34 2 (by omega)), frameNat_keptFrame_discarded b 34 2 (by decide)]
  case payload =>
    have h := readRange_framePayload (keptFrame b) (frameHeader b).kind (by simpa using hlen)
    rwa [framePayload_keptFrame] at h

/-- Settles O39: the bytes behind the size field are those of the cleared frame. -/
theorem reencodeOfDecoded : Obligations.ReencodeOfDecoded := by
  intro b m win hdecode
  obtain ⟨hlen, hfits, hm, -⟩ := (decodeFrame_eq_some b m win).1 hdecode
  have hwin : frameWindow b ≤ b.length - 36 := Nat.min_le_right ..
  have hwf : m.payload.variant.wellFormed = true := by
    rw [hm, framePayload_variant]
    exact (decodeKind_word _).1
  have hplen : payloadLen m.payload.variant = kindLen m.payload.kind := len_eq_kindLen m.payload hwf
  obtain ⟨rest, hd, hrest⟩ := encoded_eq_keptFrame b (by omega) m hm
  have hdlen : (headerBytes m.sample m.payload ++ payloadBytes m.payload).length = 36 + payloadLen m.payload.variant := by
    rw [List.length_append, headerBytes_length, payloadBytes_length, Payload.len]
  refine ⟨_, encodeFrame_ok m.sample m.payload rfl (illFormed_sample m hwf), hdlen, ?_, fun i hi hlt => ?_⟩
  · rw [hd, hplen, List.take_append_of_le_length (by simp), List.take_of_length_le (by simp)]
  · have hrestLen : i - 2 < rest.length := by
      rw [hd, List.length_append, leBytes_length] at hlt
      omega
    have hread := ((readRange_eq_some ..).1 hrest).2 (i - 2) hrestLen
    rw [hd, List.getElem?_append_right (by simpa using hi), leBytes_length, ← hread, read_ofBytes, keptFrame_getElem?,
      Nat.add_sub_cancel' hi]

/-- A well-formed sample is the sample of a valid message. -/
theorem exists_valid_sample (e : EncSample) (h : illFormed e = false) : ∃ m : Message, m.valid = true ∧ m.sample = e := by
  obtain ⟨hv, p, hp, hwf⟩ := (illFormed_eq_false e).1 h
  have hlen := kindLen_le p.kind
  refine ⟨⟨frameHeader (headerBytes e p ++ payloadBytes p), p⟩, (valid_iff _).2 ⟨?_, hwf, ?_⟩, ?_⟩
  · rw [frameHeader_encoded e p hv]
  · rw [frameHeader_encoded e p hv]
    exact (BitVec.toNat_ofNat ..).trans (Nat.mod_eq_of_lt (by omega))
  · have hversion : (e.version.setWidth 12).setWidth 16 = e.version :=
      BitVec.eq_of_toNat_eq (by simp only [BitVec.toNat_setWidth]; omega)
    rw [frameHeader_encoded e p hv, Message.sample, hversion, ← hp]

/-- The encoder writes every discarded bit as zero (rules R88, R164, R165, R167, R169): its frame is what encoding the
message that the frame decodes to gives. -/
theorem keptFrame_encoded (e : EncSample) (b : List Byte) (h : encodeFrame e = some b) : keptFrame b = b := by
  have hwf : illFormed e = false := by
    by_contra hill
    rw [encodeFrame_illFormed e (by simpa using hill)] at h
    cases h
  obtain ⟨m, hvalid, rfl⟩ := exists_valid_sample e hwf
  obtain ⟨b', hb', hdecode⟩ := codecRoundTrip m hvalid
  obtain rfl : b = b' := Option.some.inj (h.symm.trans hb')
  obtain ⟨d, hd, -, -, hkept⟩ := reencodeOfDecoded b m _ hdecode
  obtain rfl : b = d := Option.some.inj (h.symm.trans hd)
  refine List.ext_getElem? fun i => ?_
  rw [keptFrame_getElem?]
  rcases Nat.lt_or_ge i 2 with hlow | hge
  · rw [keptBits_whole i (by simp; omega)]
    simp only [and_0xFF, Option.map_id']
  · rcases Nat.lt_or_ge i b.length with hlt | hend
    · exact (hkept i hge hlt).symm
    · simp [hend]

end Sys2Proof.Machine
end

section
/-! PROOF. The host's port: reads, writes, requests, COPY and RESET (10_state.md rules R29 to R41; 20_memory.md rule R60;
30_encoding.md rules R101, R102; 70_reset_and_hazards.md rules R220 to R231), with the unit they touch idle or busy. -/

namespace Sys2Proof.Machine

/-! RESET (rules R220, R221). -/

theorem resetState_afterReset (s : State) : (resetState s).afterReset := by
  obtain ⟨hdec, -, henc, -⟩ := unspecifiedReadsFault (resetState s)
  obtain ⟨hlen, hout⟩ := henc rfl (by simp [State.reset])
  exact ⟨rfl, rfl, rfl, rfl, hdec rfl (by simp [State.reset]), hlen, hout, read_nil, rfl, encRegs_reset_allUnwritten, rfl, rfl⟩

/-- Settles O2: no transaction is left, so that a move of either unit finds it idle. -/
theorem resetAbandonsTransactions : Obligations.ResetAbandonsTransactions := by
  intro s
  refine ⟨resetState s, rfl, resetState_afterReset s, rfl, rfl, rfl, fun u => ?_⟩
  cases u <;> rfl

/-! Reads. -/

theorem hostReadReg_dec_header (s : State) (r : DecReg) (hu : s.decUnit = .idle) (hr : r.payloadTag = none) :
    hostReadReg (.dec r) s = s.readsIf (s.decStatus = 1) (s.decRegs.readValue r) := by
  rw [hostReadReg_dec s r hu, State.readsIf]
  simp only [decSpecified_eq_true, hr, true_or, and_true]

theorem hostReadReg_dec_payload (s : State) (r : DecReg) (tag : BitVec 3) (hu : s.decUnit = .idle)
    (hr : r.payloadTag = some tag) :
    hostReadReg (.dec r) s = s.readsIf (s.decStatus = 1 ∧ s.decRegs.ptag = tag) (s.decRegs.readValue r) := by
  rw [hostReadReg_dec s r hu, State.readsIf]
  simp only [decSpecified_eq_true, hr, reduceCtorEq, false_or, Option.some.injEq, eq_comm (a := tag)]

theorem hostReadReg_encLen_readsIf (s : State) (hu : s.encUnit = .idle) :
    hostReadReg .encLen s = s.readsIf (s.encStatus = 1) (.unsigned s.encLen.toNat) := by
  rw [hostReadReg_encLen s hu, State.readsIf]
  simp only [encSpecified_eq_true]

theorem hostReadReg_encOut_readsIf (s : State) (i : Nat) (b : Byte) (hu : s.encUnit = .idle) (hi : i < 88)
    (hb : s.encOut.read i = some b) :
    hostReadReg (.encOut i) s = s.readsIf (s.encStatus = 1 ∧ i < s.encLen.toNat) (.unsigned b.toNat) := by
  rw [hostReadReg_encOut s i hu hi, State.outByte, hb, State.readsIf]
  simp only [encSpecified_eq_true]
  split_ifs <;> rfl

theorem hostReadReg_encOut_none (s : State) (i : Nat) (hu : s.encUnit = .idle) (hi : i < 88)
    (hb : s.encOut.read i = none) : hostReadReg (.encOut i) s = .fault .unspecifiedRead := by
  rw [hostReadReg_encOut s i hu hi, State.outByte, hb, ite_self]
  rfl

/-- Settles O59: each register is read under its own name, a payload register under the tag of its variant. -/
theorem eachRegisterReadsItself : Obligations.EachRegisterReadsItself := by
  refine ⟨fun s hu => ?dec, fun s hu => ⟨hostReadReg_encLen_readsIf s hu,
    fun i b hi hb => hostReadReg_encOut_readsIf s i b hu hi hb, fun i hi hb => hostReadReg_encOut_none s i hu hi hb⟩⟩
  have header := fun r => hostReadReg_dec_header s r hu
  have payload := fun r tag => hostReadReg_dec_payload s r tag hu
  exact ⟨header .size rfl, header .version rfl, header .addr rfl, header .tagged rfl, header .target rfl,
    header .site rfl, header .ack rfl, header .atTime rfl, header .kind rfl, header .winLen rfl, header .ptag rfl,
    payload .pVendor 2 rfl, payload .pProduct 2 rfl, payload .pVersion 2 rfl,
    payload .pTime 4 rfl, payload .pUptime 4 rfl, payload .pDowntime 4 rfl,
    payload .pHue 5 rfl, payload .pSat 5 rfl, payload .pBri 5 rfl, payload .pKelvin 5 rfl, payload .pDim 5 rfl,
    payload .pPower 5 rfl, payload .pLabel 5 rfl, payload .pTags 5 rfl⟩

/-- The outputs of an OK encoder, in a state that meets the invariant: one frame, of the length that `ENC_LEN` holds. -/
theorem inv_encOut (s : State) (h : s.Inv) (hok : s.encStatus = statusOk) :
    ∃ b : List Byte, s.encOut = Mem.ofBytes b ∧ s.encLen.toNat = b.length ∧ b.length ≤ 88 := by
  obtain ⟨b, hout, hlen, hmem⟩ := h.enc_ok hok
  have hle : b.length ≤ 88 := by
    simp only [List.mem_cons, List.not_mem_nil, or_false] at hmem
    omega
  refine ⟨b, hout, ?_, hle⟩
  rw [hlen, BitVec.toNat_ofNat, Nat.mod_eq_of_lt (by omega)]

theorem deliverStatus_legal (s : State) (status : BitVec 2) (h : status ≠ statusReserved) :
    deliverStatus s status = .next { s with hostRead := some (.unsigned status.toNat) } :=
  if_neg h

/-- Settles O53: the invariant rules out the reserved status and gives every output byte below `ENC_LEN` a value. -/
theorem specifiedReadsDeliver : Obligations.SpecifiedReadsDeliver := by
  refine ⟨fun s => ⟨s.decBusy, rfl, decBusy_eq_true s⟩, fun s => ⟨s.encBusy, rfl, encBusy_eq_true s⟩, fun s hinv =>
    ⟨fun hu => ?decStatus, fun hu => ?encStatus, fun hu hok r hr => ?decRegs, fun hu hok => ⟨?encLen, fun i hi => ?encOut⟩⟩⟩
  case decStatus =>
    simp only [hostReadReg, (decBusy_eq_false s).2 hu]
    exact deliverStatus_legal s _ hinv.decStatus_legal
  case encStatus =>
    simp only [hostReadReg, (encBusy_eq_false s).2 hu]
    exact deliverStatus_legal s _ hinv.encStatus_legal
  case decRegs =>
    rw [hostReadReg_dec s r hu, if_pos ((decSpecified_eq_true s r).2 ⟨hok, hr⟩)]
  case encLen =>
    rw [hostReadReg_encLen s hu, if_pos ((encSpecified_eq_true s).2 hok)]
  case encOut =>
    obtain ⟨b, hout, hlen, hle⟩ := inv_encOut s hinv hok
    have hread : s.encOut.read i = some b[i] := by rw [hout, read_ofBytes, List.getElem?_eq_getElem]
    refine ⟨b[i], hread, ?_⟩
    rw [hostReadReg_encOut_readsIf s i _ hu (by omega) hread]
    exact if_pos ⟨hok, hi⟩

/-! Acts that rule R230 forbids (log 8). -/

/-- Settles O54: a busy unit refuses before anything else is looked at. -/
theorem busyHazard : Obligations.BusyHazard := by
  refine ⟨fun s hbusy => ?dec, fun s hbusy => ?enc⟩
  case dec =>
    obtain ⟨t, hu⟩ := (decBusy_eq_true s).1 hbusy
    refine ⟨by simp only [exec, execDecode, hu], ?_, fun r => ?_⟩
    · simp only [hostReadReg, hbusy, if_true]
    · simp only [hostReadReg, hbusy, if_true]
  case enc =>
    obtain ⟨t, hu⟩ := (encBusy_eq_true s).1 hbusy
    refine ⟨by simp only [exec, execEncode, hu], ?_, ?_, fun i => ?_⟩
    · simp only [hostReadReg, hbusy, if_true]
    · simp only [hostReadReg, hbusy, if_true]
    · simp only [hostReadReg, hbusy, if_true]

/-! Writes (rules R27, R28, R38, R231). -/

theorem hostWriteDecIn_inside (s : State) (i : Nat) (b : Byte) (hi : i < Config.maxInLen) :
    hostWriteDecIn i b s =
      if decInHeld s i then .fault .inputChangedInFlight else .next { s with decIn := s.decIn.write i b } :=
  if_pos (.inr hi)

theorem hostWriteDecLen_inside (s : State) (n : Nat) (hn : n ≤ Config.maxInLen) :
    hostWriteDecLen n s =
      if s.decBusy then .fault .inputChangedInFlight else .next { s with decLen := .holds n } :=
  if_pos (.inr hn)

theorem decInHeld_idle (s : State) (i : Nat) (hu : s.decUnit = .idle) : decInHeld s i = false := by
  simp only [decInHeld, hu]

theorem decInHeld_inFlight (s : State) (t : DecTxn) (i : Nat) (hu : s.decUnit = .inFlight t) :
    decInHeld s i = decide (i < min t.input.length 88) := by
  simp only [decInHeld, hu]

theorem hostWriteEnc_idle (s : State) (w : EncWrite) (hu : s.encUnit = .idle) :
    hostWriteEnc w s = .next { s with encIn := s.encIn.set w } := by
  simp [hostWriteEnc, (encBusy_eq_false s).2 hu]

/-- Settles O55: whether a write takes effect is whether its unit holds the input stable. -/
theorem inputStability : Obligations.InputStability := by
  refine ⟨fun s t i b hu hi => ⟨fun hheld => ?held, fun hfree => ?free⟩, fun s t n hu hn => ?decLenBusy,
    fun s t w hu => ?encBusy, fun s i b hu hi => ?decIn, fun s n hu hn => ?decLen, hostWriteEnc_idle, read_write⟩
  case held =>
    rw [hostWriteDecIn_inside s i b hi, decInHeld_inFlight s t i hu, decide_eq_true hheld, if_pos rfl]
  case free =>
    rw [hostWriteDecIn_inside s i b hi, decInHeld_inFlight s t i hu, decide_eq_false (Nat.not_lt.2 hfree)]
    rfl
  case decLenBusy =>
    rw [hostWriteDecLen_inside s n hn, (decBusy_eq_true s).2 ⟨t, hu⟩, if_pos rfl]
  case encBusy =>
    exact if_pos ((encBusy_eq_true s).2 ⟨t, hu⟩)
  case decIn =>
    rw [hostWriteDecIn_inside s i b hi, decInHeld_idle s i hu]
    rfl
  case decLen =>
    rw [hostWriteDecLen_inside s n hn, (decBusy_eq_false s).2 hu]
    rfl

/-- Settles O60: with an idle encoder every write takes effect, and `EncRegs.set` changes the register it names. -/
theorem encoderInputWrites : Obligations.EncoderInputWrites := by
  intro s hu
  have write := fun w => hostWriteEnc_idle s w hu
  exact ⟨fun v => write (.version v), fun v => write (.addr v), fun v => write (.tagged v), fun v => write (.target v),
    fun v => write (.site v), fun v => write (.ack v), fun v => write (.atTime v), fun v => write (.ptag v),
    fun v => write (.emptyKind v), fun v => write (.pVendor v), fun v => write (.pProduct v),
    fun v => write (.pVersion v), fun v => write (.pTime v), fun v => write (.pUptime v), fun v => write (.pDowntime v),
    fun v => write (.pHue v), fun v => write (.pSat v), fun v => write (.pBri v), fun v => write (.pKelvin v),
    fun v => write (.pDim v), fun v => write (.pPower v), fun v => write (.pLabel v), fun v => write (.pTags v)⟩

/-- Settles O57: the capacity is at least 88, so that an offset or a length outside the buffer fails both tests. -/
theorem outsideBufferFaults : Obligations.OutsideBufferFaults := by
  have hcap := le_maxInLen
  refine ⟨fun s i b hi => if_neg (by omega), fun s n hn => if_neg (by omega), fun s i hu hi => ?_⟩
  simp [hostReadReg, (encBusy_eq_false s).2 hu, Nat.not_lt.2 hi]

/-! Requests (rules R101, R222). -/

/-- A decoder is ready exactly when it is idle and its sample is complete. -/
theorem decodeReady_iff (s : State) (b : List Byte) :
    s.decodeReady b ↔ s.decUnit = .idle ∧ sampleDecode s = some b := by
  refine ⟨fun h => ⟨h.1, sampleDecode_ready s b h⟩, fun ⟨hu, hsample⟩ => ?_⟩
  simp only [sampleDecode] at hsample
  split at hsample
  · cases hsample
  · next n hn =>
    obtain ⟨rfl, hread⟩ := (readRange_eq_some ..).1 hsample
    exact ⟨hu, (input_get?_eq_some ..).1 hn, by simpa only [Nat.zero_add] using hread⟩

/-- What a DECODE request does: it starts the transaction of a ready decoder, it faults on an idle one that is not ready,
and it is refused on a busy one. -/
theorem exec_decode_cases (s : State) :
    (∃ b, s.decodeReady b ∧ exec .decode s = .next { s with decUnit := .inFlight (beginDecode b) }) ∨
    (s.decUnit = .idle ∧ (∀ b, ¬s.decodeReady b) ∧ exec .decode s = .fault .inputNotWritten) ∨
    (s.decBusy = true ∧ exec .decode s = .refused .hostActsWhileBusy) := by
  cases hu : s.decUnit with
  | inFlight t => exact .inr (.inr ⟨(decBusy_eq_true s).2 ⟨t, hu⟩, by simp only [exec, execDecode, hu]⟩)
  | idle =>
    cases hs : sampleDecode s with
    | none => exact .inr (.inl ⟨rfl, by simp [decodeReady_iff, hs], by simp only [exec, execDecode, hu, hs]⟩)
    | some b =>
      have hready := (decodeReady_iff s b).2 ⟨hu, hs⟩
      exact .inl ⟨b, hready, exec_decode_ready s b hready⟩

/-- What an ENCODE request does, in the same three cases. -/
theorem exec_encode_cases (s : State) :
    (∃ e, s.encodeReady e ∧ exec .encode s = .next { s with encUnit := .inFlight (beginEncode e) }) ∨
    (s.encUnit = .idle ∧ (∀ e, ¬s.encodeReady e) ∧ exec .encode s = .fault .inputNotWritten) ∨
    (s.encBusy = true ∧ exec .encode s = .refused .hostActsWhileBusy) := by
  cases hu : s.encUnit with
  | inFlight t => exact .inr (.inr ⟨(encBusy_eq_true s).2 ⟨t, hu⟩, by simp only [exec, execEncode, hu]⟩)
  | idle =>
    cases hs : sampleEncode s.encIn with
    | none => exact .inr (.inl ⟨rfl, by simp [encodeReady_iff, hs], by simp only [exec, execEncode, hu, hs]⟩)
    | some e =>
      have hready := (encodeReady_iff s e).2 ⟨hu, hs⟩
      exact .inl ⟨e, hready, exec_encode_ready s e hready⟩

theorem exec_decode_eq_next (s t : State) :
    exec .decode s = .next t ↔ ∃ b, s.decodeReady b ∧ t = { s with decUnit := .inFlight (beginDecode b) } := by
  refine ⟨fun h => ?_, fun ⟨b, hready, ht⟩ => ht ▸ exec_decode_ready s b hready⟩
  rcases exec_decode_cases s with ⟨b, hready, hexec⟩ | ⟨-, -, hexec⟩ | ⟨-, hexec⟩ <;> rw [hexec] at h <;> cases h
  exact ⟨b, hready, rfl⟩

theorem exec_encode_eq_next (s t : State) :
    exec .encode s = .next t ↔ ∃ e, s.encodeReady e ∧ t = { s with encUnit := .inFlight (beginEncode e) } := by
  refine ⟨fun h => ?_, fun ⟨e, hready, ht⟩ => ht ▸ exec_encode_ready s e hready⟩
  rcases exec_encode_cases s with ⟨e, hready, hexec⟩ | ⟨-, -, hexec⟩ | ⟨-, hexec⟩ <;> rw [hexec] at h <;> cases h
  exact ⟨e, hready, rfl⟩

/-- An idle decoder that is not ready faults. -/
theorem exec_decode_unready (s : State) (hu : s.decUnit = .idle) (h : ∀ b, ¬s.decodeReady b) :
    exec .decode s = .fault .inputNotWritten := by
  rcases exec_decode_cases s with ⟨b, hready, -⟩ | ⟨-, -, hexec⟩ | ⟨hbusy, -⟩
  · exact absurd hready (h b)
  · exact hexec
  · simp [hu] at hbusy

/-- An idle encoder that is not ready faults. -/
theorem exec_encode_unready (s : State) (hu : s.encUnit = .idle) (h : ∀ e, ¬s.encodeReady e) :
    exec .encode s = .fault .inputNotWritten := by
  rcases exec_encode_cases s with ⟨e, hready, -⟩ | ⟨-, -, hexec⟩ | ⟨hbusy, -⟩
  · exact absurd hready (h e)
  · exact hexec
  · simp [hu] at hbusy

theorem exec_encode_fault_congr (s t : State) (f : Fault) (hunit : t.encUnit = s.encUnit) (hin : t.encIn = s.encIn)
    (h : exec .encode s = .fault f) : exec .encode t = .fault f := by
  rcases exec_encode_cases s with ⟨e, -, hexec⟩ | ⟨hu, hunready, hexec⟩ | ⟨-, hexec⟩ <;> rw [hexec] at h <;> cases h
  refine exec_encode_unready t (hunit.trans hu) fun e he => hunready e ?_
  rwa [State.encodeReady, hunit, hin] at he

theorem runAll_singleton (i : Instr) (s : State) : runAll [i] s = exec i s := by
  rw [runAll]
  cases exec i s <;> rfl

theorem hostRequest_decode (s : State) : hostRequest 1 s = exec .decode s := runAll_singleton .decode s

theorem hostRequest_encode (s : State) : hostRequest 2 s = exec .encode s := runAll_singleton .encode s

theorem hostRequest_both (s : State) : hostRequest 3 s = runAll [.decode, .encode] s := rfl

theorem hostRequest_both_ready (s : State) (b : List Byte) (h : s.decodeReady b) :
    hostRequest 3 s = exec .encode { s with decUnit := .inFlight (beginDecode b) } := by
  rw [hostRequest_both, runAll, exec_decode_ready s b h, ← runAll_singleton .encode]

/-- Settles O8: the vector's bits are the two operations, DECODE first; the ENCODE of a `0b11` finds the encoder as it was. -/
theorem requestVectorStartsUnits : Obligations.RequestVectorStartsUnits := by
  refine ⟨fun s => rfl, fun s b hd => ?decode, fun s e he => ?encode, fun s b e hd he => ?both, fun s hbusy => ?decBusy,
    fun s hbusy => ?encBusy, fun s b hbusy hd => ?bothEncBusy, fun s f hf => ?decFault, fun s f hf => ?encFault⟩
  case decode => rw [hostRequest_decode, exec_decode_ready s b hd]
  case encode => rw [hostRequest_encode, exec_encode_ready s e he]
  case both =>
    rw [hostRequest_both_ready s b hd]
    exact exec_encode_ready _ e he
  case decBusy =>
    obtain ⟨hrefused, -⟩ := busyHazard.1 s hbusy
    rw [hostRequest_decode, hostRequest_both, runAll, hrefused]
    exact ⟨rfl, rfl⟩
  case encBusy => rw [hostRequest_encode, (busyHazard.2 s hbusy).1]
  case bothEncBusy =>
    rw [hostRequest_both_ready s b hd]
    exact (busyHazard.2 { s with decUnit := .inFlight (beginDecode b) } hbusy).1
  case decFault =>
    rw [hostRequest_decode, hostRequest_both, runAll, hf]
    exact ⟨rfl, rfl⟩
  case encFault =>
    refine ⟨by rw [hostRequest_encode, hf], fun b hd => ?_⟩
    rw [hostRequest_both_ready s b hd]
    exact exec_encode_fault_congr s _ f rfl rfl hf

/-- Settles O56: a ready unit holds a value in every input that its sample needs. -/
theorem unwrittenInputsFault : Obligations.UnwrittenInputsFault := by
  refine ⟨fun s hu h => exec_decode_unready s hu fun b ⟨_, hlen, hread⟩ => ?decode,
    fun s hu h => exec_encode_unready s hu fun e ⟨_, hhold⟩ => ?encode⟩
  case decode =>
    rcases h with h | ⟨n, i, hn, hi, hnone⟩
    · simp [hlen] at h
    · obtain rfl : b.length = n := by simpa [hlen] using hn
      have hsome := hread i hi
      simp [hnone, hi] at hsome
  case encode =>
    obtain ⟨h1, h2, h3, h4, h5, h6, h7, hpayload⟩ := hhold
    simp only [h1, h2, h3, h4, h5, h6, h7, Bool.true_eq_false, false_or] at h
    cases hp : e.payload with
    | none =>
      rw [hp] at hpayload
      rcases hpayload with hg | hg <;> simp [hg] at h
    | some p =>
      rw [hp] at hpayload
      have hg := holdPayload_some_ptag s.encIn p hpayload
      cases p <;> simp [EncRegs.holdPayload] at hpayload <;> simp [hg, hpayload, Payload.tag] at h

/-! COPY (rule R102). -/

theorem hostCopy_ok (s : State) (bs : List Byte) (hd : s.decUnit = .idle) (he : s.encUnit = .idle)
    (hok : s.encStatus = statusOk) (hbs : s.encOut.readRange 0 s.encLen.toNat = some bs) :
    hostCopy s = .next { s with decIn := memWriteBytes 0 bs s.decIn, decLen := .holds s.encLen.toNat } := by
  simp [hostCopy, (encBusy_eq_false s).2 he, (decBusy_eq_false s).2 hd, (encSpecified_eq_true s).2 hok, hbs]

theorem hostCopy_noValue (s : State) (hd : s.decUnit = .idle) (he : s.encUnit = .idle) (hok : s.encStatus = statusOk)
    (hnone : s.encOut.readRange 0 s.encLen.toNat = none) : hostCopy s = .fault .unspecifiedRead := by
  simp [hostCopy, (encBusy_eq_false s).2 he, (decBusy_eq_false s).2 hd, (encSpecified_eq_true s).2 hok, hnone]

/-- A range of offsets that all hold a value can be read. -/
theorem exists_readRange (m : Mem) (off n : Nat) (h : ∀ i, i < n → ∃ b, m.read (off + i) = some b) :
    ∃ bs, m.readRange off n = some bs := by
  induction n generalizing off with
  | zero => exact ⟨[], rfl⟩
  | succ n ih =>
    obtain ⟨b, hb⟩ := h 0 (Nat.succ_pos n)
    obtain ⟨bs, hbs⟩ := ih (off + 1) fun i hi => by
      rw [Nat.add_assoc, Nat.add_comm 1 i]
      exact h (i + 1) (Nat.succ_lt_succ hi)
    exact ⟨b :: bs, by rw [Mem.readRange, hbs, show m.read off = some b from hb]⟩

/-- A range with an offset that holds no value cannot be read. -/
theorem readRange_eq_none (m : Mem) (off n i : Nat) (hi : i < n) (h : m.read (off + i) = none) :
    m.readRange off n = none := by
  cases hr : m.readRange off n with
  | none => rfl
  | some bs =>
    obtain ⟨hlen, hread⟩ := (readRange_eq_some ..).1 hr
    have hbyte := hread i hi
    rw [h, List.getElem?_eq_getElem (hlen ▸ hi)] at hbyte
    cases hbyte

theorem inv_readRange_encOut (s : State) (h : s.Inv) (hok : s.encStatus = statusOk) :
    ∃ bs, s.encOut.readRange 0 s.encLen.toNat = some bs ∧ bs.length ≤ 88 ∧ s.encLen.toNat = bs.length := by
  obtain ⟨b, hout, hlen, hle⟩ := inv_encOut s h hok
  exact ⟨b, by rw [hout, hlen, readRange_ofBytes], hle, hlen⟩

/-- Settles O58: with both units idle and an OK encoder, COPY succeeds exactly when the range below `ENC_LEN` can be read. -/
theorem copyMovesFrame : Obligations.CopyMovesFrame := by
  refine ⟨fun s hd he hok hread => ?moves, fun s t hu => if_pos ((encBusy_eq_true s).2 ⟨t, hu⟩), fun s t he hu => ?decBusy,
    fun s hd he hok => ?notOk, fun s i hd he hok hi hnone => ?noValue, fun s hinv hd he hok => ?inv⟩
  case moves =>
    obtain ⟨bs, hbs⟩ := exists_readRange s.encOut 0 s.encLen.toNat (by simpa only [Nat.zero_add] using hread)
    obtain ⟨hlen, hbytes⟩ := (readRange_eq_some ..).1 hbs
    refine ⟨_, hostCopy_ok s bs hd he hok hbs, fun i => ?_⟩
    rw [read_memWriteBytes, hlen, Nat.zero_add, Nat.sub_zero]
    simp only [Nat.zero_le, true_and]
    split_ifs with hi
    · rw [← hbytes i hi, Nat.zero_add]
    · rfl
  case decBusy =>
    simp [hostCopy, (encBusy_eq_false s).2 he, (decBusy_eq_true s).2 ⟨t, hu⟩]
  case notOk =>
    have hspec : s.encSpecified = false := Bool.eq_false_iff.2 ((encSpecified_eq_true s).not.2 hok)
    simp [hostCopy, (encBusy_eq_false s).2 he, (decBusy_eq_false s).2 hd, hspec]
  case noValue =>
    exact hostCopy_noValue s hd he hok (readRange_eq_none s.encOut 0 _ i hi (by rwa [Nat.zero_add]))
  case inv =>
    obtain ⟨bs, hbs, -⟩ := inv_readRange_encOut s hinv hok
    exact ⟨_, hostCopy_ok s bs hd he hok hbs⟩

end Sys2Proof.Machine
end

section
/-! PROOF. The units refine the codec (10_state.md rule R25): what a DECODE and an ENCODE leave, from the request to the
completion, and the statements that follow from the codec's functions (40_header_decode.md rules R123 to R127,
42_serialize.md rules R160, R181, R183, 60_exceptions.md rule R190). -/

namespace Sys2Proof.Machine

/-! The requests (rules R123, R124, R160). -/

/-- The first short field begins inside the input and crosses its end. -/
theorem shortField_crosses (n : Nat) (h : n < 36) : (shortField n).off ≤ n ∧ n < (shortField n).off + (shortField n).n := by
  unfold shortField
  split_ifs <;> constructor <;> dsimp only <;> omega

/-- Settles O9: the request starts the transaction of the bytes that the ready decoder holds. -/
theorem decodeRequestCompletes : Obligations.DecodeRequestCompletes := by
  intro s b hready
  refine ⟨beginDecode b, exec_decode_ready s b hready, beginDecode_input b, fun hlen => ?_, fun hshort => ?_⟩
  · rw [beginDecode_ok b hlen]
    exact ⟨rfl, rfl⟩
  · obtain ⟨hbegin, hend⟩ := shortField_crosses b.length hshort
    rw [beginDecode_short b hshort]
    exact ⟨shortField b.length, rfl, rfl, hbegin, hend⟩

/-- Settles O10: below 36 bytes the header stage fails at the first short field, from 36 on it reads every field. -/
theorem headerStageTruncation : Obligations.HeaderStageTruncation := by
  refine fun input => ⟨⟨fun ⟨e, he⟩ => ?_, fun hshort => ⟨_, headerStage_error input hshort⟩⟩, headerStage_ok input⟩
  by_contra hlen
  rw [headerStage_ok input (Nat.not_lt.1 hlen)] at he
  cases he

/-- Settles O27: the request starts the transaction of the values that the ready encoder holds. -/
theorem encodeRequestCompletes : Obligations.EncodeRequestCompletes := by
  refine ⟨fun s e hready => ⟨beginEncode e, exec_encode_ready s e hready, beginEncode_sample e, fun hill => ?_,
    fun hwf => ?_⟩, fun s t h => ?_⟩
  · rw [beginEncode_illFormed e hill]
  · obtain ⟨-, p, hp, -⟩ := (illFormed_eq_false e).1 hwf
    exact ⟨p, _, hp, by rw [beginEncode_ok e p hp hwf], read_ofBytes _⟩
  · obtain ⟨e, hready, -⟩ := (exec_encode_eq_next s t).1 h
    exact ⟨e, hready⟩

/-! DECODE as one function. -/

/-- Fewer than 36 bytes do not decode. -/
theorem decodeFrame_short (b : List Byte) (h : b.length < 36) : decodeFrame b = none :=
  if_neg fun hfits => absurd hfits.1 (Nat.not_le.2 h)

/-- The decoder's move on the transaction of a request leaves the outcome of the codec's decode function: a short header,
a short window and a whole frame give its three cases. -/
theorem unitMove_beginDecode (s : State) (b : List Byte) (hu : s.decUnit = .inFlight (beginDecode b)) :
    ∃ m, unitMove .dec s = .next (decodeOutcome b { s with mover := m }) := by
  rcases Nat.lt_or_ge b.length 36 with hshort | hlen
  · rw [beginDecode_short b hshort] at hu
    refine ⟨s.mover, (unitMove_dec_raised s b _ _ hu).trans ?_⟩
    simp only [decodeOutcome, decodeFrame_short b hshort]
    rfl
  · have hwin : frameWindow b ≤ b.length - 36 := Nat.min_le_right ..
    rw [beginDecode_ok b hlen] at hu
    refine ⟨.dec, ?_⟩
    rw [unitMove_dec_payload s b 36 _ _ hu, exec_on_decoder { s with mover := .dec } b 36 _ _ rfl hu hlen hwin]
    simp only [decodeOutcome, decodeFrame, hlen, true_and]
    split_ifs <;> rfl

/-- Settles O17: the request starts the transaction on which the move leaves the codec's outcome. -/
theorem decodeRefinesCodec : Obligations.DecodeRefinesCodec := by
  intro s b hready
  obtain ⟨m, hmove⟩ := unitMove_beginDecode { s with decUnit := .inFlight (beginDecode b) } b rfl
  refine ⟨_, by rw [transact, exec_decode_ready s b hready]; exact hmove, ?_⟩
  unfold decodeOutcome
  split <;> rfl

/-- The decoder's fields do not depend on which unit moved last. -/
theorem sameBlock_decoder (s t : State) (h : s.sameBlock t) :
    s.decUnit = t.decUnit ∧ s.decStatus = t.decStatus ∧ s.decRegs = t.decRegs := by
  simp only [State.sameBlock, State.mk.injEq] at h
  obtain ⟨-, -, hunit, hstatus, hregs, -⟩ := h
  exact ⟨hunit, hstatus, hregs⟩

/-- The status and the results that a DECODE leaves. -/
theorem transact_decode (s : State) (b : List Byte) (h : s.decodeReady b) :
    ∃ t, transact .decode .dec s = .next t ∧ t.decUnit = .idle ∧
      (∀ m win, decodeFrame b = some (m, win) →
        t.decStatus = statusOk ∧ t.decRegs = s.decRegs.withResult m.header win m.payload) ∧
      (decodeFrame b = none → t.decStatus = statusError) := by
  obtain ⟨t, ht, hsame⟩ := decodeRefinesCodec s b h
  obtain ⟨hunit, hstatus, hregs⟩ := sameBlock_decoder t _ hsame
  refine ⟨t, ht, ?_, fun m win hm => ?_, fun hnone => ?_⟩
  · rw [hunit, decodeOutcome]
    split <;> rfl
  · rw [hstatus, hregs]
    simp only [decodeOutcome, hm, and_self]
  · rw [hstatus]
    simp only [decodeOutcome, hnone]

/-- A DECODE is OK exactly when its header is whole and its window holds the payload; it then commits the window. -/
theorem transact_decode_status (s : State) (b : List Byte) (h : s.decodeReady b) :
    ∃ t, transact .decode .dec s = .next t ∧
      (t.decStatus = statusOk ↔ 36 ≤ b.length ∧ kindLen (frameHeader b).kind ≤ frameWindow b) ∧
      (t.decStatus = statusError ↔ ¬(36 ≤ b.length ∧ kindLen (frameHeader b).kind ≤ frameWindow b)) ∧
      (t.decStatus = statusOk → t.decRegs.winLen = BitVec.ofNat 16 (frameWindow b)) := by
  obtain ⟨t, ht, -, hok, herror⟩ := transact_decode s b h
  refine ⟨t, ht, ?_⟩
  by_cases hfits : 36 ≤ b.length ∧ kindLen (frameHeader b).kind ≤ frameWindow b
  · obtain ⟨hstatus, hregs⟩ := hok _ _ (if_pos hfits)
    obtain ⟨-, -, -, -, -, -, -, -, -, hwin, -⟩ := withResult_hasHeader s.decRegs (frameHeader b) (frameWindow b)
      (framePayload (frameHeader b).kind b)
    simp [hstatus, hfits, hregs, hwin]
  · simp [herror (if_neg hfits), hfits]

/-- Two DECODEs of bytes that decode alike end with one status and deliver the same. -/
theorem transact_decode_congr (s s' : State) (b d : List Byte) (h : s.decodeReady b) (h' : s'.decodeReady d)
    (heq : decodeFrame b = decodeFrame d) :
    ∃ t t', transact .decode .dec s = .next t ∧ transact .decode .dec s' = .next t' ∧ t.decStatus = t'.decStatus ∧
      ∀ r, delivered (.dec r) t = delivered (.dec r) t' := by
  obtain ⟨t, ht, hu, hok, herror⟩ := transact_decode s b h
  obtain ⟨t', ht', hu', hok', herror'⟩ := transact_decode s' d h'
  refine ⟨t, t', ht, ht', ?_⟩
  cases hb : decodeFrame b with
  | none =>
    have hstatus := herror hb
    have hstatus' := herror' (heq ▸ hb)
    refine ⟨hstatus.trans hstatus'.symm, fun r => ?_⟩
    rw [delivered_dec t r hu, delivered_dec t' r hu']
    simp [hstatus, hstatus', State.decSpecified]
  | some mw =>
    obtain ⟨m, win⟩ := mw
    obtain ⟨hstatus, hregs⟩ := hok m win hb
    obtain ⟨hstatus', hregs'⟩ := hok' m win (heq ▸ hb)
    refine ⟨hstatus.trans hstatus'.symm, fun r => ?_⟩
    rw [delivered_dec t r hu, delivered_dec t' r hu']
    simp only [decSpecified_eq_true, hstatus, hstatus', hregs, hregs', withResult_ptag, true_and]
    split_ifs with hr
    · exact congrArg some (withResult_readValue s.decRegs s'.decRegs m.header win m.payload r hr)
    · rfl

/-- A decode looks at the first 88 bytes and the length (rule R65). -/
theorem decodeFrame_congr_take (b d : List Byte) (hlen : b.length = d.length) (hagree : b.take 88 = d.take 88) :
    decodeFrame b = decodeFrame d := by
  have hnat := fun off n => frameNat_congr b d off n 88 hagree
  have hbytes := fun off n => frameBytes_congr b d off n 88 hagree
  have hheader : frameHeader b = frameHeader d := by
    simp (disch := decide) only [frameHeader, hnat, hbytes]
  have hpayload : framePayload (frameHeader d).kind b = framePayload (frameHeader d).kind d := by
    have hle := kindLen_le (frameHeader d).kind
    refine framePayload_congr _ b d ?_
    simpa only [List.drop_zero] using take_drop_congr b d 0 (36 + kindLen (frameHeader d).kind) 88 (by omega) hagree
  rw [decodeFrame, decodeFrame, frameWindow, frameWindow, hheader, hpayload, hlen]

/-- Settles O18: the two inputs decode alike. -/
theorem decodeIsDeterministic : Obligations.DecodeIsDeterministic := by
  intro s s' b d hb hd hlen hagree
  exact transact_decode_congr s s' b d hb hd (decodeFrame_congr_take b d hlen hagree)

/-- Settles O19: an error status is the failing of `decodeFrame`'s condition. -/
theorem truncatedInputCondition : Obligations.TruncatedInputCondition := by
  intro s b hready
  obtain ⟨t, ht, -, herror, -⟩ := transact_decode_status s b hready
  refine ⟨t, ht, ?_⟩
  rw [payloadLen_decodeKind]
  have hwindow : payloadWindow (frameHeader b).size b.length = frameWindow b := rfl
  rw [hwindow, show t.decStatus = 2 ↔ _ from herror]
  omega

/-- Settles O16: in each case the window is the one that `frameWindow` takes the minimum of. -/
theorem sizeAgainstLength : Obligations.SizeAgainstLength := by
  intro s b hready hlen
  obtain ⟨t, ht, hok, -, hwin⟩ := transact_decode_status s b hready
  rw [payloadLen_decodeKind]
  simp only [hlen, true_and] at hok
  have outcome : ∀ w, frameWindow b = w →
      (t.decStatus = statusOk ↔ kindLen (frameHeader b).kind ≤ w) ∧
      (t.decStatus = statusOk → t.decRegs.winLen = BitVec.ofNat 16 w) := fun w hw => hw ▸ ⟨hok, hwin⟩
  have hdef : frameWindow b = min ((frameHeader b).size.toNat - 36) (b.length - 36) := rfl
  refine ⟨t, ht, fun _ => outcome _ (by omega), fun _ _ => outcome _ (by omega), fun _ => outcome _ (by omega),
    fun _ => ?_⟩
  rw [← Nat.le_zero]
  exact outcome 0 (by omega)

/-! LightState (rules R145, R147, R176). -/

/-- Settles O24: the payload of a frame of kind 107 is the eight fields at offsets 36 to 80, together 52 bytes. -/
theorem lightStateDecodes : Obligations.LightStateDecodes := by
  intro s input h win hs hk
  have ⟨_, _, hlen, hwin⟩ := hs
  obtain ⟨hfits, hshort⟩ := exec_atDecodePayload_outcome s input h win 107 hs hk
  refine ⟨fun hle => ?_, hshort⟩
  obtain ⟨regs, hexec, hheader, hhue, hsat, hbri, hkelvin, hdim, hpower, hlabel, htags⟩ := hfits hle
  refine ⟨regs, hexec, hheader, hhue, hsat, hbri, hkelvin, hdim, hpower, ?_, htags⟩
  rw [hlabel]
  exact takeD_eq_take _ _ (by rw [List.length_drop]; omega)

/-- Settles O25: the register is the one that LightState commits, and its read is `signedDim` of it. -/
theorem dimIsSigned : Obligations.DimIsSigned := by
  refine ⟨fun s input h win hs hk hfits => ?commit, fun s u hu hok htag hdim => ?read, by decide, by decide, by decide,
    by decide⟩
  case commit =>
    obtain ⟨regs, hexec, -, -, -, -, -, hdim, -⟩ := (lightStateDecodes s input h win hs hk).1 hfits
    exact ⟨_, hexec, hdim⟩
  case read =>
    have hread : hostReadReg (.dec .pDim) s = .next { s with hostRead := some (.signed (signedDim u)) } := by
      rw [hostReadReg_dec_payload s .pDim 5 hu rfl, ← hdim]
      exact if_pos ⟨hok, htag⟩
    rw [hread, signedDim]
    exact ⟨fun hle => by rw [if_pos hle], fun hlt => by rw [if_neg (Nat.not_le.2 hlt)]⟩

/-- The two's complement value of 16 bits, modulo 65536, is the bits (rule R176). -/
theorem toInt_emod_toNat (u : BitVec 16) : (u.toInt % 65536).toNat = u.toNat := by
  have hlt := u.isLt
  rw [BitVec.toInt_eq_toNat_cond]
  split_ifs <;> omega

/-- Settles O34: the 52 payload bytes are the eight fields one behind the other. -/
theorem lightStateEncodes : Obligations.LightStateEncodes := by
  intro s e color dim power label tags out hs
  obtain ⟨frame, hexec, hbytes, hframe⟩ := exec_atEncodePayload s e _ out hs
  simp only [payloadBytes, List.append_assoc, readRange_append, leBytes_length, label.length_eq, Nat.reduceAdd] at hbytes
  obtain ⟨hhue, hsat, hbri, hkelvin, hdim, hpower, hlabel, htags⟩ := hbytes
  refine ⟨rfl, frame, hexec, hhue, hsat, hbri, hkelvin, ?_, hpower, hlabel, htags, hframe⟩
  rw [toInt_emod_toNat, hdim]

/-! ENCODE as one function. -/

/-- An ENCODE that has written its header runs the format of its payload (rule R160). -/
theorem unitMove_enc_payload (s : State) (e : EncSample) (out : Mem) (p : Payload)
    (hu : s.encUnit = .inFlight ⟨e, .headerWritten out⟩) (hp : e.payload = some p) :
    unitMove .enc s = exec p.variant { s with mover := .enc } := by
  simp only [unitMove, fetch, hu, hp]

/-- The encoder's move on the transaction of a request leaves the outcome of the codec's encode function. -/
theorem unitMove_beginEncode (s : State) (e : EncSample) (hu : s.encUnit = .inFlight (beginEncode e)) :
    ∃ m, unitMove .enc s = .next (encodeOutcome e { s with mover := m }) := by
  cases hill : illFormed e with
  | true =>
    rw [beginEncode_illFormed e hill] at hu
    refine ⟨s.mover, (unitMove_enc_illFormed s e hu).trans ?_⟩
    simp only [encodeOutcome, encodeFrame_illFormed e hill]
    rfl
  | false =>
    obtain ⟨-, p, hp, -⟩ := (illFormed_eq_false e).1 hill
    rw [beginEncode_ok e p hp hill] at hu
    refine ⟨.enc, ?_⟩
    rw [unitMove_enc_payload s e _ p hu hp, exec_on_encoder { s with mover := .enc } e _ p rfl hu hp,
      memWriteBytes_ofBytes _ _ 36 (headerBytes_length e p).symm]
    simp only [encodeOutcome, encodeFrame_ok e p hp hill, List.length_append, headerBytes_length, payloadBytes_length]
    rfl

/-- Settles O35: the request starts the transaction on which the move leaves the codec's outcome. -/
theorem encodeRefinesCodec : Obligations.EncodeRefinesCodec := by
  intro s e hready
  obtain ⟨m, hmove⟩ := unitMove_beginEncode { s with encUnit := .inFlight (beginEncode e) } e rfl
  refine ⟨_, by rw [transact, exec_encode_ready s e hready]; exact hmove, ?_⟩
  unfold encodeOutcome
  split <;> rfl

/-- The status and the outputs that an ENCODE leaves. -/
theorem transact_encode (s : State) (e : EncSample) (h : s.encodeReady e) :
    ∃ t, transact .encode .enc s = .next t ∧ (t.encStatus = statusOk → ∃ p, e.payload = some p ∧
      encodeFrame e = some (headerBytes e p ++ payloadBytes p) ∧
      t.encOut = Mem.ofBytes (headerBytes e p ++ payloadBytes p) ∧ t.encLen = BitVec.ofNat 16 (36 + p.len)) := by
  cases hill : illFormed e with
  | true => exact ⟨_, transact_encode_illFormed s e h hill, by simp⟩
  | false =>
    obtain ⟨-, p, hp, -⟩ := (illFormed_eq_false e).1 hill
    exact ⟨_, transact_encode_ok s e p h hp hill, fun _ => ⟨p, hp, encodeFrame_ok e p hp hill, rfl, rfl⟩⟩

/-- Settles O36: the tag register holds the tag of the sampled payload's variant, which has the length. -/
theorem frameLengthByTag : Obligations.FrameLengthByTag := by
  intro s e g hready hg
  obtain ⟨t, ht, hok⟩ := transact_encode s e hready
  refine ⟨t, ht, fun hstatus => ?_⟩
  obtain ⟨p, hp, -, -, hlen⟩ := hok hstatus
  obtain ⟨-, -, -, -, -, -, -, -, hpayload⟩ := hready
  rw [hp] at hpayload
  obtain rfl : g = p.tag := by simpa [hg] using holdPayload_some_ptag s.encIn p hpayload
  rw [hlen]
  cases p <;> rfl

/-- Settles O15: two frames that agree in the kept bits decode alike; an encoded frame has the others zero. -/
theorem discardedWireContent : Obligations.DiscardedWireContent := by
  refine ⟨fun s s' b d hb hd hkept => transact_decode_congr s s' b d hb hd (decodeFrame_congr_sameKept b d hkept),
    fun s e hready => ?encode⟩
  obtain ⟨t, ht, hok⟩ := transact_encode s e hready
  refine ⟨t, ht, fun hstatus i hi => ?_⟩
  obtain ⟨p, -, hframe, hout, -⟩ := hok hstatus
  have hlt : i < (headerBytes e p ++ payloadBytes p).length := by
    rw [List.length_append, headerBytes_length]
    omega
  have hkept := keptFrame_getElem? (headerBytes e p ++ payloadBytes p) i
  rw [keptFrame_encoded e _ hframe, List.getElem?_eq_getElem hlt, Option.map_some, Option.some.injEq] at hkept
  exact ⟨_, by rw [hout, read_ofBytes, List.getElem?_eq_getElem hlt], hkept.symm⟩

/-! The loopback (rules R102, R181). -/

/-- An idle decoder is ready with the bytes that were written to the front of its buffer. -/
theorem decodeReady_written (s : State) (bs : List Byte) (hu : s.decUnit = .idle) :
    { s with decIn := memWriteBytes 0 bs s.decIn, decLen := .holds bs.length }.decodeReady bs := by
  refine ⟨hu, rfl, fun i hi => ?_⟩
  rw [read_memWriteBytes, if_pos ⟨Nat.zero_le i, by omega⟩, Nat.sub_zero]

/-- Settles O38: COPY makes the decoder ready with the encoded frame, which decodes to the message. -/
theorem loopbackRoundTrip : Obligations.LoopbackRoundTrip := by
  intro s m hvalid hready hidle
  obtain ⟨-, hwf, -⟩ := (valid_iff m).1 hvalid
  have hencode := transact_encode_ok s m.sample m.payload hready rfl (illFormed_sample m hwf)
  have hdecode := decodeFrame_encoded m hvalid
  have hlen : (headerBytes m.sample m.payload ++ payloadBytes m.payload).length = 36 + m.payload.len := by
    rw [List.length_append, headerBytes_length, payloadBytes_length]
  generalize headerBytes m.sample m.payload ++ payloadBytes m.payload = b at hencode hdecode hlen
  have hle : m.payload.len ≤ 52 := len_eq_kindLen m.payload hwf ▸ kindLen_le _
  have hencLen : (BitVec.ofNat 16 (36 + m.payload.len)).toNat = b.length := by
    rw [BitVec.toNat_ofNat, hlen, Nat.mod_eq_of_lt (by omega)]
  have hcopy := hostCopy_ok (commitEncode (36 + m.payload.len) (Mem.ofBytes b) { s with mover := .enc }) b hidle rfl rfl
    (by rw [commitEncode_encLen, hencLen]; exact readRange_ofBytes b)
  rw [commitEncode_encLen, hencLen] at hcopy
  obtain ⟨t3, ht3, -, hok, -⟩ := transact_decode _ b (decodeReady_written (commitEncode (36 + m.payload.len)
    (Mem.ofBytes b) { s with mover := .enc }) b hidle)
  obtain ⟨hstatus, hregs⟩ := hok m _ hdecode
  refine ⟨_, _, t3, hencode, rfl, hcopy, ht3, hstatus, ?_⟩
  rw [hregs]
  exact ⟨withResult_hasHeader .., withResult_hasPayload ..⟩

end Sys2Proof.Machine
end

section
/-! PROOF. What an instruction, a unit's move and a step can do, and what they leave unchanged (10_state.md rules R20, R37;
20_memory.md rule R61; 40_header_decode.md rule R122; 42_serialize.md rule R160; 60_exceptions.md rules R196, R205). -/

namespace Sys2Proof.Machine

/-! The payload formats: each is one decode rule and one encode rule, which do not depend on the state. -/

theorem exec_format (i : Instr) (hf : i.format = .kind16) :
    ∃ decRule encRule, ∀ s, exec i s = runVariant i decRule encRule s := by
  cases i with
  | deviceGetVersion => exact ⟨_, _, fun s => rfl⟩
  | deviceStateVersion => exact ⟨_, _, fun s => rfl⟩
  | deviceGetInfo => exact ⟨_, _, fun s => rfl⟩
  | deviceStateInfo => exact ⟨_, _, fun s => rfl⟩
  | lightState => exact ⟨_, _, fun s => rfl⟩
  | empty k => exact ⟨_, _, fun s => rfl⟩
  | decode => cases hf
  | encode => cases hf

/-- What a format does on the decoder, by the decoder's transaction alone: it commits what its decode rule gives, it raises
TruncatedInput, or no transaction is at its payload stage. -/
theorem exec_format_dec (i : Instr) (hf : i.format = .kind16) (unit : DecUnit) :
    (∃ input cur h win, unit = .inFlight ⟨input, cur, .payload h win⟩ ∧ decodeKind h.kind = i ∧
      ((∃ p, ∀ s, s.mover = .dec → s.decUnit = unit → exec i s = .next (commitDecode h win p s)) ∨
        ∀ s, s.mover = .dec → s.decUnit = unit → exec i s = .next (raiseError .dec s))) ∨
    ((∀ input cur h win, unit = .inFlight ⟨input, cur, .payload h win⟩ → decodeKind h.kind ≠ i) ∧
      ∀ s, s.mover = .dec → s.decUnit = unit → exec i s = .refused .notRouted) := by
  obtain ⟨decRule, encRule, hexec⟩ := exec_format i hf
  have hdec : ∀ s, s.mover = .dec → exec i s = completeDecode i decRule s := fun s hm => by
    rw [hexec, runVariant, hm]
  match unit with
  | .idle => exact .inr ⟨by simp, fun s hm hu => by simp only [hdec s hm, completeDecode, hu]⟩
  | .inFlight ⟨_, _, .raised _⟩ => exact .inr ⟨by simp, fun s hm hu => by simp only [hdec s hm, completeDecode, hu]⟩
  | .inFlight ⟨input, cur, .payload h win⟩ =>
    by_cases hi : decodeKind h.kind = i
    · refine .inl ⟨input, cur, h, win, rfl, hi, ?_⟩
      cases hrule : decRule input win with
      | ok p => exact .inl ⟨p, fun s hm hu => by simp only [hdec s hm, completeDecode, hu, hi, if_true, hrule]⟩
      | error e => exact .inr fun s hm hu => by simp only [hdec s hm, completeDecode, hu, hi, if_true, hrule]
    · refine .inr ⟨fun input' cur' h' win' heq => ?_, fun s hm hu => ?_⟩
      · cases heq
        exact hi
      · simp only [hdec s hm, completeDecode, hu, hi, if_false]

/-- What a format does on the encoder: it commits the frame, or no transaction is at its payload stage. -/
theorem exec_format_enc (i : Instr) (hf : i.format = .kind16) (s : State) (hm : s.mover = .enc) :
    (∃ e out p, s.encUnit = .inFlight ⟨e, .headerWritten out⟩ ∧ e.payload = some p ∧ p.variant = i ∧
      exec i s = .next (commitEncode (36 + p.len) (memWriteBytes 36 (payloadBytes p) out) s)) ∨
    ((∀ e out p, s.encUnit = .inFlight ⟨e, .headerWritten out⟩ → e.payload = some p → p.variant ≠ i) ∧
      exec i s = .refused .notRouted) := by
  obtain ⟨decRule, encRule, hexec⟩ := exec_format i hf
  have henc : exec i s = completeEncode i encRule s := by rw [hexec, runVariant, hm]
  match hu : s.encUnit with
  | .idle => exact .inr ⟨by simp, by simp only [henc, completeEncode, hu]⟩
  | .inFlight ⟨_, .illFormed⟩ => exact .inr ⟨by simp, by simp only [henc, completeEncode, hu]⟩
  | .inFlight ⟨e, .headerWritten out⟩ =>
    cases hp : e.payload with
    | none =>
      refine .inr ⟨fun e' out' p heq hp' => ?_, by simp only [henc, completeEncode, hu, hp]⟩
      cases heq
      rw [hp] at hp'
      cases hp'
    | some p =>
      by_cases hi : p.variant = i
      · exact .inl ⟨e, out, p, rfl, hp, hi, hi ▸ exec_on_encoder s e out p hm hu hp⟩
      · refine .inr ⟨fun e' out' p' heq hp' => ?_, by simp only [henc, completeEncode, hu, hp, hi, if_false]⟩
        cases heq
        rw [hp] at hp'
        cases hp'
        exact hi

/-- Settles O51: the refusals are the cases in which no transaction is at the payload stage of the format. -/
theorem formatsRunOnlyWhereRouted : Obligations.FormatsRunOnlyWhereRouted := by
  refine fun i s hf => ⟨fun hm hno => ?_, fun hm hno => ?_⟩
  · rcases exec_format_dec i hf s.decUnit with ⟨input, cur, h, win, hu, hi, -⟩ | ⟨-, hrefused⟩
    · exact absurd hi (hno input cur h win hu)
    · exact hrefused s hm rfl
  · rcases exec_format_enc i hf s hm with ⟨e, out, p, hu, hp, hi, -⟩ | ⟨-, hrefused⟩
    · exact absurd hi (hno e out p hu hp)
    · exact hrefused

/-! Frames. -/

/-- A format that answers on the decoder has committed the DECODE or raised its error. -/
theorem exec_format_dec_next (i : Instr) (s t : State) (hf : i.format = .kind16) (hm : s.mover = .dec)
    (h : exec i s = .next t) : (∃ hdr win p, t = commitDecode hdr win p s) ∨ t = raiseError .dec s := by
  rcases exec_format_dec i hf s.decUnit with ⟨_, _, hdr, win, _, _, ⟨p, hcommit⟩ | hraise⟩ | ⟨-, hrefused⟩
  · rw [hcommit s hm rfl] at h
    cases h
    exact .inl ⟨hdr, win, p, rfl⟩
  · rw [hraise s hm rfl] at h
    cases h
    exact .inr rfl
  · rw [hrefused s hm rfl] at h
    cases h

/-- A format that answers on the encoder has committed the frame. -/
theorem exec_format_enc_next (i : Instr) (s t : State) (hf : i.format = .kind16) (hm : s.mover = .enc)
    (h : exec i s = .next t) :
    ∃ e out p, s.encUnit = .inFlight ⟨e, .headerWritten out⟩ ∧ p.variant = i ∧
      t = commitEncode (36 + p.len) (memWriteBytes 36 (payloadBytes p) out) s := by
  rcases exec_format_enc i hf s hm with ⟨e, out, p, hu, -, hi, hcommit⟩ | ⟨-, hrefused⟩
  · rw [hcommit] at h
    cases h
    exact ⟨e, out, p, hu, hi, rfl⟩
  · rw [hrefused] at h
    cases h

/-- Settles O40: a request changes its unit to the transaction that it starts. -/
theorem requestFrame : Obligations.RequestFrame := by
  refine ⟨fun s t h => ?_, fun s t h => ?_⟩
  · obtain ⟨b, -, rfl⟩ := (exec_decode_eq_next s t).1 h
    exact ⟨rfl, fun a => rfl, fun a => rfl⟩
  · obtain ⟨e, -, rfl⟩ := (exec_encode_eq_next s t).1 h
    exact ⟨rfl, fun a => rfl, fun a => rfl⟩

/-- Settles O41: both completions of a DECODE leave everything but the decoder's unit, status and results. -/
theorem formatFrameOnDecoder : Obligations.FormatFrameOnDecoder := by
  intro i s t hf hm h
  rcases exec_format_dec_next i s t hf hm h with ⟨hdr, win, p, rfl⟩ | rfl
  · exact ⟨rfl, fun a => rfl, fun a => rfl⟩
  · exact ⟨rfl, fun a => rfl, fun a => rfl⟩

/-- Settles O42: the payload bytes are written from offset 36 on, as many as the variant has. -/
theorem formatFrameOnEncoder : Obligations.FormatFrameOnEncoder := by
  intro i s t hf hm h
  obtain ⟨e, out, p, hu, rfl, rfl⟩ := exec_format_enc_next i s t hf hm h
  refine ⟨rfl, fun a => rfl, e, out, hu, fun a ha => ?_⟩
  rw [commitEncode_encOut, read_memWriteBytes, payloadBytes_length]
  exact if_neg ha

/-- Settles O43: a request writes its unit, a completion its unit, status and outputs. -/
theorem unitsNeverWriteInputs : Obligations.UnitsNeverWriteInputs := by
  intro i s t h
  have hcases : i = .decode ∨ i = .encode ∨ i.format = .kind16 := by cases i <;> simp [Instr.format]
  rcases hcases with rfl | rfl | hf
  · obtain ⟨b, -, rfl⟩ := (exec_decode_eq_next s t).1 h
    exact ⟨rfl, rfl, rfl, rfl, rfl⟩
  · obtain ⟨e, -, rfl⟩ := (exec_encode_eq_next s t).1 h
    exact ⟨rfl, rfl, rfl, rfl, rfl⟩
  · cases hm : s.mover with
    | dec =>
      rcases exec_format_dec_next i s t hf hm h with ⟨hdr, win, p, rfl⟩ | rfl
      · exact ⟨rfl, rfl, rfl, rfl, rfl⟩
      · exact ⟨rfl, rfl, rfl, rfl, rfl⟩
    | enc =>
      obtain ⟨e, out, p, -, -, rfl⟩ := exec_format_enc_next i s t hf hm h
      exact ⟨rfl, rfl, rfl, rfl, rfl⟩

/-! A unit's move: a function on states that its own transaction fixes. -/

/-- What a move of the decoder can do to a state. -/
inductive DecMove : (State → State) → Prop where
  | idle : DecMove fun s => s
  | raise : DecMove fun s => raiseError .dec s
  | raiseInFormat : DecMove fun s => raiseError .dec { s with mover := .dec }
  | commit (h : Header) (win : Nat) (p : Payload) : DecMove fun s => commitDecode h win p { s with mover := .dec }

/-- What a move of the encoder can do to a state. -/
inductive EncMove : (State → State) → Prop where
  | idle : EncMove fun s => s
  | raise : EncMove fun s => raiseError .enc s
  | commit (len : Nat) (out : Mem) : EncMove fun s => commitEncode len out { s with mover := .enc }

/-- A move of the decoder always answers, leaves the decoder idle, and is fixed by its transaction (rules R61, R196). -/
theorem unitMove_dec (unit : DecUnit) :
    ∃ g, DecMove g ∧ ∀ s, s.decUnit = unit → unitMove .dec s = .next (g s) ∧ (g s).decUnit = .idle := by
  match unit with
  | .idle => exact ⟨_, .idle, fun s hu => ⟨by simp only [unitMove, fetch, hu], hu⟩⟩
  | .inFlight ⟨input, cur, .raised e⟩ =>
    exact ⟨_, .raise, fun s hu => ⟨unitMove_dec_raised s input cur e hu, rfl⟩⟩
  | .inFlight ⟨input, cur, .payload h win⟩ =>
    have hmove := fun s hu => unitMove_dec_payload s input cur h win hu
    obtain ⟨-, hf, -⟩ := decodeKind_word h.kind
    rcases exec_format_dec (decodeKind h.kind) hf (.inFlight ⟨input, cur, .payload h win⟩) with
      ⟨_, _, hdr, w, -, -, ⟨p, hcommit⟩ | hraise⟩ | ⟨hno, -⟩
    · exact ⟨_, .commit hdr w p, fun s hu => ⟨(hmove s hu).trans (hcommit _ rfl hu), rfl⟩⟩
    · exact ⟨_, .raiseInFormat, fun s hu => ⟨(hmove s hu).trans (hraise _ rfl hu), rfl⟩⟩
    · exact absurd rfl (hno input cur h win rfl)

/-- A move of the encoder, likewise. -/
theorem unitMove_enc (unit : EncUnit) :
    ∃ k, EncMove k ∧ ∀ s, s.encUnit = unit → unitMove .enc s = .next (k s) ∧ (k s).encUnit = .idle := by
  match unit with
  | .idle => exact ⟨_, .idle, fun s hu => ⟨by simp only [unitMove, fetch, hu], hu⟩⟩
  | .inFlight ⟨e, .illFormed⟩ => exact ⟨_, .raise, fun s hu => ⟨unitMove_enc_illFormed s e hu, rfl⟩⟩
  | .inFlight ⟨e, .headerWritten out⟩ =>
    cases hp : e.payload with
    | none => exact ⟨_, .raise, fun s hu => ⟨by simp only [unitMove, fetch, hu, hp], rfl⟩⟩
    | some p =>
      refine ⟨_, .commit (36 + p.len) (memWriteBytes 36 (payloadBytes p) out), fun s hu => ⟨?_, rfl⟩⟩
      exact (unitMove_enc_payload s e out p hu hp).trans (exec_on_encoder _ e out p rfl hu hp)

/-- A move of the decoder leaves the inputs, the encoder and the host's side. -/
theorem DecMove.frame {g : State → State} (h : DecMove g) (s : State) :
    (g s).decIn = s.decIn ∧ (g s).decLen = s.decLen ∧ (g s).encIn = s.encIn ∧ (g s).encUnit = s.encUnit ∧
      (g s).encStatus = s.encStatus ∧ (g s).encOut = s.encOut ∧ (g s).encLen = s.encLen ∧ (g s).agenda = s.agenda := by
  cases h <;> exact ⟨rfl, rfl, rfl, rfl, rfl, rfl, rfl, rfl⟩

/-- A move of the encoder leaves the inputs, the decoder and the host's side. -/
theorem EncMove.frame {k : State → State} (h : EncMove k) (s : State) :
    (k s).decIn = s.decIn ∧ (k s).decLen = s.decLen ∧ (k s).decUnit = s.decUnit ∧ (k s).decStatus = s.decStatus ∧
      (k s).decRegs = s.decRegs ∧ (k s).encIn = s.encIn ∧ (k s).agenda = s.agenda := by
  cases h <;> exact ⟨rfl, rfl, rfl, rfl, rfl, rfl, rfl⟩

/-- Settles O48: the decoder's transaction fixes its move, and its inputs fix its request. -/
theorem decoderIgnoresEncoder : Obligations.DecoderIgnoresEncoder := by
  intro s s' hin hlen hunit hstatus hregs
  refine ⟨fun t ht => ?request, fun t ht => ?move⟩
  case request =>
    obtain ⟨b, hready, rfl⟩ := (exec_decode_eq_next s t).1 ht
    rw [State.decodeReady, hin, hlen, hunit] at hready
    exact ⟨_, (exec_decode_eq_next s' _).2 ⟨b, hready, rfl⟩, rfl⟩
  case move =>
    obtain ⟨g, hg, hmove⟩ := unitMove_dec s.decUnit
    rw [(hmove s rfl).1] at ht
    cases ht
    refine ⟨g s', (hmove s' hunit.symm).1, ?_⟩
    cases hg with
    | idle => exact ⟨hunit, hstatus, hregs⟩
    | raise => exact ⟨rfl, rfl, hregs⟩
    | raiseInFormat => exact ⟨rfl, rfl, hregs⟩
    | commit h win p => exact ⟨rfl, rfl, congrArg (DecRegs.withResult · h win p) hregs⟩

/-- A request commutes with the other unit's move. -/
theorem decode_unitMove_enc (s u : State) :
    (∃ t, exec .decode s = .next t ∧ unitMove .enc t = .next u) ↔
      ∃ t, unitMove .enc s = .next t ∧ exec .decode t = .next u := by
  obtain ⟨k, hk, hmove⟩ := unitMove_enc s.encUnit
  obtain ⟨hin, hlen, hunit, -⟩ := hk.frame s
  have hready : ∀ b, (k s).decodeReady b ↔ s.decodeReady b := fun b => by
    rw [State.decodeReady, State.decodeReady, hin, hlen, hunit]
  have hmoved : ∀ d, unitMove .enc { s with decUnit := d } = .next { k s with decUnit := d } := fun d => by
    rw [(hmove { s with decUnit := d } rfl).1]
    cases hk <;> rfl
  simp only [(hmove s rfl).1, exec_decode_eq_next, hready, Host.Outcome.next.injEq, exists_eq_left']
  constructor
  · rintro ⟨_, ⟨b, hb, rfl⟩, hu⟩
    rw [hmoved] at hu
    cases hu
    exact ⟨b, hb, rfl⟩
  · rintro ⟨b, hb, rfl⟩
    exact ⟨_, ⟨b, hb, rfl⟩, hmoved _⟩

theorem encode_unitMove_dec (s u : State) :
    (∃ t, exec .encode s = .next t ∧ unitMove .dec t = .next u) ↔
      ∃ t, unitMove .dec s = .next t ∧ exec .encode t = .next u := by
  obtain ⟨g, hg, hmove⟩ := unitMove_dec s.decUnit
  obtain ⟨-, -, hin, hunit, -⟩ := hg.frame s
  have hready : ∀ e, (g s).encodeReady e ↔ s.encodeReady e := fun e => by
    rw [State.encodeReady, State.encodeReady, hin, hunit]
  have hmoved : ∀ d, unitMove .dec { s with encUnit := d } = .next { g s with encUnit := d } := fun d => by
    rw [(hmove { s with encUnit := d } rfl).1]
    cases hg <;> rfl
  simp only [(hmove s rfl).1, exec_encode_eq_next, hready, Host.Outcome.next.injEq, exists_eq_left']
  constructor
  · rintro ⟨_, ⟨e, he, rfl⟩, hu⟩
    rw [hmoved] at hu
    cases hu
    exact ⟨e, he, rfl⟩
  · rintro ⟨e, he, rfl⟩
    exact ⟨_, ⟨e, he, rfl⟩, hmoved _⟩

theorem decode_encode (s u : State) :
    (∃ t, exec .decode s = .next t ∧ exec .encode t = .next u) ↔
      ∃ t, exec .encode s = .next t ∧ exec .decode t = .next u := by
  simp only [exec_decode_eq_next, exec_encode_eq_next]
  constructor
  · rintro ⟨_, ⟨b, hb, rfl⟩, e, he, rfl⟩
    exact ⟨_, ⟨e, he, rfl⟩, b, hb, rfl⟩
  · rintro ⟨_, ⟨e, he, rfl⟩, b, hb, rfl⟩
    exact ⟨_, ⟨b, hb, rfl⟩, e, he, rfl⟩

/-- The two units' moves, in both orders, give one block. -/
theorem unitMove_dec_enc (s : State) :
    ∃ t u t' u', unitMove .dec s = .next t ∧ unitMove .enc t = .next u ∧ unitMove .enc s = .next t' ∧
      unitMove .dec t' = .next u' ∧ u.sameBlock u' := by
  obtain ⟨g, hg, hdec⟩ := unitMove_dec s.decUnit
  obtain ⟨k, hk, henc⟩ := unitMove_enc s.encUnit
  obtain ⟨-, -, -, henc', -⟩ := hg.frame s
  obtain ⟨-, -, hdec', -⟩ := hk.frame s
  refine ⟨g s, k (g s), k s, g (k s), (hdec s rfl).1, (henc _ henc').1, (henc s rfl).1, (hdec _ hdec').1, ?_⟩
  cases hg <;> cases hk <;> rfl

/-- Settles O47: requests and moves of the two units touch disjoint fields. -/
theorem unitsCommute : Obligations.UnitsCommute := by
  refine ⟨decode_encode, decode_unitMove_enc, encode_unitMove_dec, fun s t u ht hu => ?_, fun s t u ht hu => ?_⟩
  · obtain ⟨t1, u1, t2, u2, h1, h2, h3, h4, hsame⟩ := unitMove_dec_enc s
    rw [h1] at ht
    cases ht
    rw [h2] at hu
    cases hu
    exact ⟨t2, u2, h3, h4, hsame⟩
  · obtain ⟨t1, u1, t2, u2, h1, h2, h3, h4, hsame⟩ := unitMove_dec_enc s
    rw [h3] at ht
    cases ht
    rw [h4] at hu
    cases hu
    exact ⟨t1, u1, h1, h2, Eq.symm hsame⟩

/-! The host's actions. -/

/-- What an action of the host that answers can do to a state. -/
inductive HostEffect (s : State) : HostAct → State → Prop where
  | writeDecIn (i : Nat) (b : Byte) (hi : i < Config.maxInLen) (hfree : decInHeld s i = false) :
    HostEffect s (.writeDecIn i b) { s with decIn := s.decIn.write i b }
  | writeDecLen (n : Nat) (hn : n ≤ Config.maxInLen) (hu : s.decUnit = .idle) :
    HostEffect s (.writeDecLen n) { s with decLen := .holds n }
  | writeEnc (w : EncWrite) (hu : s.encUnit = .idle) : HostEffect s (.writeEnc w) { s with encIn := s.encIn.set w }
  | request (r : BitVec 2) (t : State) (h : hostRequest r s = .next t) : HostEffect s (.request r) t
  | read (r : ReadReg) (v : ReadValue) : HostEffect s (.read r) { s with hostRead := some v }
  | copy (bs : List Byte) (hu : s.decUnit = .idle) (hok : s.encStatus = statusOk)
    (hbs : s.encOut.readRange 0 s.encLen.toNat = some bs) :
    HostEffect s .copy { s with decIn := memWriteBytes 0 bs s.decIn, decLen := .holds s.encLen.toNat }
  | reset : HostEffect s .reset (resetState s)

theorem hostWriteDecIn_effect (i : Nat) (b : Byte) (s t : State) (h : hostWriteDecIn i b s = .next t) :
    HostEffect s (.writeDecIn i b) t := by
  have hcap := le_maxInLen
  unfold hostWriteDecIn at h
  split_ifs at h with hi hheld
  cases h
  exact .writeDecIn i b (by omega) (Bool.eq_false_iff.2 hheld)

theorem hostWriteDecLen_effect (n : Nat) (s t : State) (h : hostWriteDecLen n s = .next t) :
    HostEffect s (.writeDecLen n) t := by
  have hcap := le_maxInLen
  unfold hostWriteDecLen at h
  split_ifs at h with hn hbusy
  cases h
  exact .writeDecLen n (by omega) ((decBusy_eq_false s).1 (Bool.eq_false_iff.2 hbusy))

theorem hostWriteEnc_effect (w : EncWrite) (s t : State) (h : hostWriteEnc w s = .next t) :
    HostEffect s (.writeEnc w) t := by
  unfold hostWriteEnc at h
  split_ifs at h with hbusy
  cases h
  exact .writeEnc w ((encBusy_eq_false s).1 (Bool.eq_false_iff.2 hbusy))

/-- An act that is refused under a condition and answers has not met the condition. -/
theorem ite_refused_eq_next {c : Prop} [Decidable c] {r : Refusal} {o : Host.Outcome State Fault Refusal} {t : State}
    (h : (if c then .refused r else o) = .next t) : o = .next t := by
  split_ifs at h
  exact h

theorem deliver_next (s t : State) (v : Option ReadValue) (h : deliver s v = .next t) :
    ∃ v, t = { s with hostRead := some v } := by
  cases v with
  | none => cases h
  | some v => cases h; exact ⟨v, rfl⟩

theorem deliverStatus_next (s t : State) (status : BitVec 2) (h : deliverStatus s status = .next t) :
    ∃ v, t = { s with hostRead := some v } := by
  cases ite_refused_eq_next h
  exact ⟨_, rfl⟩

/-- A read that answers has delivered a value and nothing else. -/
theorem hostReadReg_next (r : ReadReg) (s t : State) (h : hostReadReg r s = .next t) :
    ∃ v, t = { s with hostRead := some v } := by
  cases r with
  | decBusy => cases h; exact ⟨_, rfl⟩
  | encBusy => cases h; exact ⟨_, rfl⟩
  | decStatus => exact deliverStatus_next s t _ (ite_refused_eq_next h)
  | encStatus => exact deliverStatus_next s t _ (ite_refused_eq_next h)
  | encLen => exact deliver_next s t _ (ite_refused_eq_next h)
  | encOut i =>
    have hinside := ite_refused_eq_next h
    split_ifs at hinside
    exact deliver_next s t _ hinside
  | dec r => exact deliver_next s t _ (ite_refused_eq_next h)

theorem hostCopy_effect (s t : State) (h : hostCopy s = .next t) : HostEffect s .copy t := by
  unfold hostCopy at h
  split_ifs at h with henc hdec hok
  split at h
  · cases h
  · next bs hbs =>
    cases h
    exact .copy bs ((decBusy_eq_false s).1 (Bool.eq_false_iff.2 hdec)) ((encSpecified_eq_true s).1 hok) hbs

/-- An action of the host that answers has its effect. -/
theorem hostAct_effect (a : HostAct) (s t : State) (h : hostAct a s = .next t) : HostEffect s a t := by
  cases a with
  | writeDecIn i b => exact hostWriteDecIn_effect i b s t h
  | writeDecLen n => exact hostWriteDecLen_effect n s t h
  | writeEnc w => exact hostWriteEnc_effect w s t h
  | request r => exact .request r t h
  | read r =>
    obtain ⟨v, rfl⟩ := hostReadReg_next r s t h
    exact .read r v
  | copy => exact hostCopy_effect s t h
  | reset => cases h; exact .reset

/-- A property that both requests keep is kept by the request vector. -/
theorem hostRequest_keeps {P : State → Prop} (hdec : ∀ s t, P s → exec .decode s = .next t → P t)
    (henc : ∀ s t, P s → exec .encode s = .next t → P t) (r : BitVec 2) (s t : State) (hs : P s)
    (h : hostRequest r s = .next t) : P t := by
  have hkeeps : ∀ is : List Instr, (∀ i ∈ is, i = .decode ∨ i = .encode) → ∀ s, P s → runAll is s = .next t → P t := by
    intro is
    induction is with
    | nil => intro _ s hs h; cases h; exact hs
    | cons i is ih =>
      intro his s hs h
      rw [runAll] at h
      split at h
      · next t' ht' =>
        refine ih (fun j hj => his j (List.mem_cons_of_mem _ hj)) t' ?_ h
        rcases his i List.mem_cons_self with rfl | rfl
        · exact hdec s t' hs ht'
        · exact henc s t' hs ht'
      · cases h
      · cases h
  refine hkeeps (decodeReq r) (fun i hi => ?_) s hs h
  simp only [decodeReq, List.mem_append, List.mem_ite_nil_right, List.mem_singleton] at hi
  exact hi.imp And.right And.right

/-- Settles O44: no host action but RESET writes a status or a result, and a unit's move writes its own only. -/
theorem resultsKeepTheirValues : Obligations.ResultsKeepTheirValues := by
  refine ⟨fun a s t hne h => ?host, fun s t h => ?enc, fun s t h => ?dec⟩
  case host =>
    cases hostAct_effect a s t h with
    | request r t h =>
      refine hostRequest_keeps (P := fun t => t.decStatus = s.decStatus ∧ t.decRegs = s.decRegs ∧
        t.encStatus = s.encStatus ∧ t.encOut = s.encOut ∧ t.encLen = s.encLen) ?_ ?_ r s t ⟨rfl, rfl, rfl, rfl, rfl⟩ h
      · intro s1 t1 hs1 h1
        obtain ⟨b, -, rfl⟩ := (exec_decode_eq_next s1 t1).1 h1
        exact hs1
      · intro s1 t1 hs1 h1
        obtain ⟨e, -, rfl⟩ := (exec_encode_eq_next s1 t1).1 h1
        exact hs1
    | reset => exact absurd rfl hne
    | _ => exact ⟨rfl, rfl, rfl, rfl, rfl⟩
  case enc =>
    obtain ⟨k, hk, hmove⟩ := unitMove_enc s.encUnit
    rw [(hmove s rfl).1] at h
    cases h
    obtain ⟨-, -, -, hstatus, hregs, -⟩ := hk.frame s
    exact ⟨hstatus, hregs⟩
  case dec =>
    obtain ⟨g, hg, hmove⟩ := unitMove_dec s.decUnit
    rw [(hmove s rfl).1] at h
    cases h
    obtain ⟨-, -, -, -, hstatus, hout, hlen, -⟩ := hg.frame s
    exact ⟨hstatus, hout, hlen⟩

/-! Steps. -/

/-- What is fetched does not depend on the agenda. -/
theorem fetch_agenda (u : CodecUnit) (s : State) (rest : List Event) : fetch u { s with agenda := rest } = fetch u s := by
  cases u <;> rfl

theorem step_unit (s : State) (u : CodecUnit) (rest : List Event) (h : s.agenda = .unit u :: rest) :
    step s = unitMove u { s with agenda := rest } := by
  simp only [step, h]

theorem step_drain (s : State) (h : s.agenda = []) : step s = unitMove (drainUnit s) s := by
  simp only [step, h]

theorem step_host (s : State) (a : HostAct) (rest : List Event) (h : s.agenda = .host a :: rest) :
    step s = hostAct a { s with agenda := rest } := by
  simp only [step, h]

/-- A step is an action of the host, or a move of a unit, on the state with its agenda moved on. -/
theorem step_next (s t : State) (h : step s = .next t) :
    ∃ rest, (∃ a, hostAct a { s with agenda := rest } = .next t) ∨ ∃ u, unitMove u { s with agenda := rest } = .next t := by
  cases hagenda : s.agenda with
  | nil => exact ⟨s.agenda, .inr ⟨_, (step_drain s hagenda).symm.trans h⟩⟩
  | cons event rest =>
    cases event with
    | host a => exact ⟨rest, .inl ⟨a, (step_host s a rest hagenda).symm.trans h⟩⟩
    | unit u => exact ⟨rest, .inr ⟨u, (step_unit s u rest hagenda).symm.trans h⟩⟩

theorem unitMove_run (u : CodecUnit) (s : State) (i : Instr) (h : fetch u s = .run i) :
    unitMove u s = exec i { s with mover := u } := by
  simp only [unitMove, h]

theorem unitMove_raise (u : CodecUnit) (s : State) (h : fetch u s = .raise) :
    unitMove u s = .next (raiseError u s) := by
  simp only [unitMove, h]

theorem unitMove_idle (u : CodecUnit) (s : State) (h : fetch u s = .idle) : unitMove u s = .next s := by
  simp only [unitMove, h]

/-- The decoder's fetch is the format that bytes 32-33 of its input decode to (rules R85, R121). -/
theorem fetch_dec_beginDecode (s : State) (input : List Byte) (i : Instr) (rest : List Byte)
    (hu : s.decUnit = .inFlight (beginDecode input)) (hlen : 36 ≤ input.length)
    (hword : decodeBytes .kind16 (input.drop 32) = .ok ([i], rest)) : fetch .dec s = .run i := by
  have hkind : (frameHeader input).kind = BitVec.ofNat 16 (leNat ((input.drop 32).take 2)) := rfl
  have hfetch : fetch .dec s = .run (decodeKind (frameHeader input).kind) := by
    simp only [fetch, hu, beginDecode_ok input hlen]
  rw [hfetch, hkind]
  match hdrop : input.drop 32, hword with
  | lo :: hi :: tl, hword =>
    simp only [decodeBytes, Except.ok.injEq, Prod.mk.injEq, List.cons.injEq, and_true] at hword
    exact congrArg Move.run hword.1

/-- The encoder's fetch is the format that the kind bytes of its payload decode to (rules R160, R161). -/
theorem fetch_enc_beginEncode (s : State) (e : EncSample) (p : Payload) (hu : s.encUnit = .inFlight (beginEncode e))
    (hp : e.payload = some p) (hwf : illFormed e = false) :
    decodeBytes .kind16 (leBytes 2 p.kind.toNat) = .ok ([p.variant], []) ∧ fetch .enc s = .run p.variant := by
  obtain ⟨-, q, hq, hqwf⟩ := (illFormed_eq_false e).1 hwf
  obtain rfl : q = p := Option.some.inj (hq.symm.trans hp)
  refine ⟨?_, by simp only [fetch, hu, beginEncode_ok e q hp hwf, hp]⟩
  rw [← decodeKind_kind q hqwf, ← decodeBytes_kindBytes, List.append_nil]

/-- A request word runs the operations that it decodes to. -/
theorem hostRequest_word (b : Byte) (is : List Instr) (s : State) (h : decodeBytes .req [b] = .ok (is, [])) :
    hostRequest (BitVec.ofNat 2 b.toNat) s = runAll is s := by
  simp only [decodeBytes] at h
  split_ifs at h
  split at h
  · cases h
  · cases h
    rfl

/-- Settles O7: a step is the first entry's action, and a move runs what its unit fetches. -/
theorem stepRunsDecodedInstruction : Obligations.StepRunsDecodedInstruction := by
  refine ⟨fun s u rest i hagenda hfetch => ?unitRun, fun s i hagenda hfetch => ?drainRun, fetch_dec_beginDecode,
    fetch_enc_beginEncode, fun s b is rest hagenda hword => ?request, fun s u rest hagenda => ?unitOther,
    fun s hagenda => ?drainOther, fun s a rest hagenda => ?host⟩
  case unitRun =>
    rw [step_unit s u rest hagenda, unitMove_run u _ i ((fetch_agenda u s rest).trans hfetch)]
  case drainRun =>
    rw [step_drain s hagenda, unitMove_run _ s i hfetch]
  case request =>
    rw [step_host s _ rest hagenda]
    exact hostRequest_word b is _ hword
  case unitOther =>
    rw [step_unit s u rest hagenda, ← fetch_agenda u s rest]
    exact ⟨unitMove_raise u _, unitMove_idle u _⟩
  case drainOther =>
    rw [step_drain s hagenda]
    exact ⟨unitMove_raise _ s, unitMove_idle _ s⟩
  case host =>
    rw [step_host s a rest hagenda]
    refine ⟨rfl, ?_, ?_, ?_, ?_, ?_, ?_, ?_⟩
    all_goals
      intros
      subst a
      rfl

/-- Settles O50: with an empty agenda the first step completes the decoder if it is busy, and the encoder's move is next;
else the first step is the encoder's. -/
theorem emptyAgendaDrains : Obligations.EmptyAgendaDrains := by
  intro s _ hagenda
  have encMove : ∀ t : State, t.agenda = [] → t.decUnit = .idle →
      ∃ u, step t = .next u ∧ u.agenda = [] ∧ u.decUnit = .idle ∧ u.encUnit = .idle := by
    intro t ht hidle
    obtain ⟨k, hk, hmove⟩ := unitMove_enc t.encUnit
    obtain ⟨-, -, hdec, -, -, -, hrest⟩ := hk.frame t
    obtain ⟨hnext, henc⟩ := hmove t rfl
    have hdrain : drainUnit t = .enc := by simp [drainUnit, (decBusy_eq_false t).2 hidle]
    exact ⟨k t, by rw [step_drain t ht, hdrain, hnext], hrest.trans ht, hdec.trans hidle, henc⟩
  have drained : ∃ t u, step s = .next t ∧ step t = .next u ∧ u.decUnit = .idle ∧ u.encUnit = .idle := by
    cases hbusy : s.decBusy with
    | false =>
      obtain ⟨t, hst, ht, hidle, -⟩ := encMove s hagenda ((decBusy_eq_false s).1 hbusy)
      obtain ⟨u, htu, -, hdec, henc⟩ := encMove t ht hidle
      exact ⟨t, u, hst, htu, hdec, henc⟩
    | true =>
      obtain ⟨g, hg, hmove⟩ := unitMove_dec s.decUnit
      obtain ⟨-, -, -, -, -, -, -, hrest⟩ := hg.frame s
      obtain ⟨hnext, hidle⟩ := hmove s rfl
      have hdrain : drainUnit s = .dec := by simp only [drainUnit, hbusy, if_true]
      obtain ⟨u, htu, -, hdec, henc⟩ := encMove (g s) (hrest.trans hagenda) hidle
      exact ⟨g s, u, by rw [step_drain s hagenda, hdrain, hnext], htu, hdec, henc⟩
  obtain ⟨t, u, hst, htu, hdec, henc⟩ := drained
  exact ⟨t, u, hst, htu, (decBusy_eq_false u).2 hdec, (encBusy_eq_false u).2 henc⟩

end Sys2Proof.Machine
end

section
/-! PROOF. The invariant (10_state.md sections 2 to 5; 70_reset_and_hazards.md section 2): it holds at reset, and every
request, host action and move keeps it. -/

namespace Sys2Proof.Machine

/-- Settles O45: both units are idle, both statuses IDLE and both buffers empty. -/
theorem resetMeetsInvariant : Obligations.ResetMeetsInvariant where
  decIn_wf := rfl
  decIn_below := rfl
  decLen_le := Nat.zero_le _
  decStatus_legal := by decide
  encStatus_legal := by decide
  dec_ok := fun h => absurd h (by decide)
  encOut_wf := rfl
  encOut_below := rfl
  enc_ok := fun h => absurd h (by decide)
  dec_flight := fun t h => by cases h
  enc_flight := fun t h => by cases h

/-- The model's own fields are not of the invariant. -/
theorem inv_ownFields (s : State) (mover : CodecUnit) (agenda : List Event) (hostRead : Option ReadValue) (h : s.Inv) :
    State.Inv { s with mover := mover, agenda := agenda, hostRead := hostRead } :=
  { h with }

/-! Requests. -/

theorem inv_exec_decode (s t : State) (h : s.Inv) (hexec : exec .decode s = .next t) : t.Inv := by
  obtain ⟨b, ⟨-, hlen, hread⟩, rfl⟩ := (exec_decode_eq_next s t).1 hexec
  refine { h with dec_flight := fun t ht => ?_ }
  cases ht
  rw [beginDecode_input]
  exact ⟨rfl, hlen, fun i hi => hread i (by omega)⟩

theorem inv_exec_encode (s t : State) (h : s.Inv) (hexec : exec .encode s = .next t) : t.Inv := by
  obtain ⟨e, ⟨-, hhold⟩, rfl⟩ := (exec_encode_eq_next s t).1 hexec
  refine { h with enc_flight := fun t ht => ?_ }
  cases ht
  rw [beginEncode_sample]
  exact ⟨rfl, hhold⟩

/-! The host. -/

theorem inv_hostEffect (s t : State) (a : HostAct) (h : s.Inv) (heffect : HostEffect s a t) : t.Inv := by
  cases heffect with
  | writeDecIn i b hi hfree =>
    refine { h with
      decIn_wf := wf_write _ _ _ h.decIn_wf
      decIn_below := below_write _ _ _ _ hi h.decIn_below
      dec_flight := fun t hu => ?_ }
    obtain ⟨hbegin, hlen, hread⟩ := h.dec_flight t hu
    rw [decInHeld_inFlight s t i hu, decide_eq_false_iff_not] at hfree
    refine ⟨hbegin, hlen, fun j hj => ?_⟩
    rw [read_write, if_neg (by omega), hread j hj]
  | writeDecLen n hn hu =>
    exact { h with decLen_le := hn, dec_flight := fun t ht => by rw [hu] at ht; cases ht }
  | writeEnc w hu => exact { h with enc_flight := fun t ht => by rw [hu] at ht; cases ht }
  | request r t hrequest => exact hostRequest_keeps inv_exec_decode inv_exec_encode r s t h hrequest
  | read r v => exact inv_ownFields s s.mover s.agenda (some v) h
  | copy bs hu hok hbs =>
    have hcap := le_maxInLen
    obtain ⟨b, -, hlen, hle⟩ := inv_encOut s h hok
    obtain ⟨hbsLen, -⟩ := (readRange_eq_some ..).1 hbs
    exact { h with
      decIn_wf := wf_memWriteBytes _ _ _ h.decIn_wf
      decIn_below := below_memWriteBytes _ _ _ _ (by omega) h.decIn_below
      decLen_le := hlen ▸ hle.trans hcap
      dec_flight := fun t ht => by rw [hu] at ht; cases ht }
  | reset => exact inv_ownFields State.reset s.mover s.agenda s.hostRead resetMeetsInvariant

/-! The moves: each leaves an outcome of the codec. -/

theorem statusOk_legal : statusOk ≠ statusReserved := by decide

theorem statusError_legal : statusError ≠ statusReserved := by decide

theorem statusError_ne_statusOk : statusError ≠ statusOk := by decide

theorem inv_decodeOutcome (s : State) (b : List Byte) (h : s.Inv) : (decodeOutcome b s).Inv := by
  unfold decodeOutcome
  split
  · next m win hdecode =>
    obtain ⟨-, hfits, rfl, rfl⟩ := (decodeFrame_eq_some b m win).1 hdecode
    exact { h with
      decStatus_legal := statusOk_legal
      dec_ok := fun _ => ⟨_, _, withResult_hasHeader .., withResult_hasPayload .., (framePayload_kind _ b).symm,
        payloadWindow_le (frameHeader b).size b.length, hfits⟩
      dec_flight := fun t ht => by cases ht }
  · exact { h with
      decStatus_legal := statusError_legal
      dec_ok := fun hok => absurd hok statusError_ne_statusOk
      dec_flight := fun t ht => by cases ht }

/-- An encoded frame has 36, 48, 60 or 88 bytes (rule R183). -/
theorem encodeFrame_length (e : EncSample) (b : List Byte) (h : encodeFrame e = some b) :
    b.length ∈ [36, 48, 60, 88] := by
  cases hp : e.payload with
  | none => simp [encodeFrame, hp] at h
  | some p =>
    simp only [encodeFrame, hp] at h
    split_ifs at h
    cases h
    rw [List.length_append, headerBytes_length, payloadBytes_length]
    cases p <;> simp [Payload.len, Payload.variant, payloadLen]

theorem below_ofBytes (b : List Byte) (n : Nat) (h : b.length ≤ n) : (Mem.ofBytes b).below n = true := by
  simp only [Mem.below, List.all_eq_true, decide_eq_true_eq]
  exact fun c hc => (ofBytes_fst_lt b c hc).trans_le h

theorem inv_encodeOutcome (s : State) (e : EncSample) (h : s.Inv) : (encodeOutcome e s).Inv := by
  unfold encodeOutcome
  split
  · next b hencode =>
    have hlen := encodeFrame_length e b hencode
    have hle : b.length ≤ 88 := by
      simp only [List.mem_cons, List.not_mem_nil, or_false] at hlen
      omega
    exact { h with
      encStatus_legal := statusOk_legal
      encOut_wf := wf_ofBytes b
      encOut_below := below_ofBytes b 88 hle
      enc_ok := fun _ => ⟨b, rfl, rfl, hlen⟩
      enc_flight := fun t ht => by cases ht }
  · exact { h with
      encStatus_legal := statusError_legal
      enc_ok := fun hok => absurd hok statusError_ne_statusOk
      enc_flight := fun t ht => by cases ht }

theorem inv_unitMove (u : CodecUnit) (s t : State) (h : s.Inv) (hmove : unitMove u s = .next t) : t.Inv := by
  cases u with
  | dec =>
    cases hu : s.decUnit with
    | idle =>
      simp only [unitMove, fetch, hu] at hmove
      cases hmove
      exact h
    | inFlight txn =>
      obtain ⟨hbegin, -⟩ := h.dec_flight txn hu
      obtain ⟨m, hnext⟩ := unitMove_beginDecode s txn.input (hbegin ▸ hu)
      rw [hnext] at hmove
      cases hmove
      exact inv_decodeOutcome _ txn.input (inv_ownFields s m s.agenda s.hostRead h)
  | enc =>
    cases hu : s.encUnit with
    | idle =>
      simp only [unitMove, fetch, hu] at hmove
      cases hmove
      exact h
    | inFlight txn =>
      obtain ⟨hbegin, -⟩ := h.enc_flight txn hu
      obtain ⟨m, hnext⟩ := unitMove_beginEncode s txn.sample (hbegin ▸ hu)
      rw [hnext] at hmove
      cases hmove
      exact inv_encodeOutcome _ txn.sample (inv_ownFields s m s.agenda s.hostRead h)

/-- Settles O46: a step is a host action or a unit's move, and each keeps the invariant. -/
theorem stepKeepsInvariant : Obligations.StepKeepsInvariant := by
  intro s t h hstep
  obtain ⟨rest, ⟨a, ha⟩ | ⟨u, hu⟩⟩ := step_next s t hstep
  · exact inv_hostEffect _ t a (inv_ownFields s s.mover rest s.hostRead h) (hostAct_effect a _ t ha)
  · exact inv_unitMove u _ t (inv_ownFields s s.mover rest s.hostRead h) hu

end Sys2Proof.Machine
end
